-- ==== Sys2Proof/Word.lean ====
section
/-! DEFINITION. The word types of the block: every wire element is one byte (00_scope.md R7), and the fields of
a payload are bit patterns of 8, 16 or 32 bits (40_packet_model.md R100). -/

namespace Sys2Proof

/-- A byte: 8 bits, values 0x00 to 0xFF (00_scope.md R7). -/
abbrev Byte := BitVec 8

/-- A 16-bit bit pattern: one field of a Vec3 (40_packet_model.md R109). -/
abbrev Bits16 := BitVec 16

/-- A 32-bit bit pattern: one field of a Quat4, or a Word (40_packet_model.md R110, R111). -/
abbrev Bits32 := BitVec 32

end Sys2Proof
end

