-- ==== Sys2Proof/Config.lean ====
section
/-! DEFINITION. What an implementation fixes (the two open parameters of 00_scope.md R12) and the free values the
spec leaves open. Everything here without a body is opaque: no proof can see what it is. -/

namespace Sys2Proof

/-- PACK_ERR_PRIORITY (00_scope.md R12, 41_pack.md R124): which error PACK reports when both its error conditions
hold. The spec leaves it open, and a claim must hold for both values. -/
inductive PackErrPriority where
  | capacityFirst
  | typeFirst
  deriving DecidableEq, Repr, Inhabited

/-- N_SESSIONS of `State.reset` (00_scope.md R5, R12: open, at least 1). DESIGN CHOICE, unsafe (log 1): 2, the
number every program of 95_test_vectors.md section 6 uses. Every other state may hold any number of sessions. -/
def Config.nSessions : Nat := 2

/-- PACK_ERR_PRIORITY of `State.reset`: an open parameter, so no value is chosen (log 2, safe). -/
opaque Config.packErrPriority : PackErrPriority

/-- The `n`-th free byte: what a successful PACK leaves in a don't-care position of OUT (41_pack.md R123,
93_implementation_defined.md I6). Nothing constrains it (log 3, safe). -/
opaque Config.freeByte : Nat → Byte

end Sys2Proof
end

