-- ==== Sys2Proof/Syntax.lean ====
section
/-! DEFINITION. The syntax of the block: payloads and packets (40_packet_model.md R100, R101), the packet types
(30_encoding.md R61), and one constructor of `Instr` for each row of spec/opcode_table.json. -/

namespace Sys2Proof

/-- The nine packet types, in the order of their tags 0x00 to 0x08 (30_encoding.md R61). -/
inductive PacketType where
  | quat
  | acc
  | gyro
  | mag
  | color
  | blink
  | infraRed
  | version
  | id
  deriving DecidableEq, Repr

/-- The payload kinds, the column "payload kind" of 30_encoding.md R61. -/
inductive PayloadKind where
  | quat4
  | vec3
  | rgb
  | word
  | empty
  deriving DecidableEq, Repr

/-- A Payload: one of five variants, each with its own fields (40_packet_model.md R100). Fields are bit patterns:
the derived equality is the bit-pattern equality of 40_packet_model.md R114. -/
inductive Payload where
  /-- Four binary32 bit patterns (R110). -/
  | quat4 (w x y z : Bits32)
  /-- Three signed 16-bit bit patterns (R109). -/
  | vec3 (x y z : Bits16)
  /-- Three unsigned bytes (R111). -/
  | rgb (r g b : Byte)
  /-- One unsigned 32-bit value (R111). -/
  | word (v : Bits32)
  /-- No payload: Blink and InfraRed (30_encoding.md R69). -/
  | empty
  deriving DecidableEq, Repr

/-- A Packet: a valid tag, held as its packet type, and a payload (40_packet_model.md R101). -/
structure Packet where
  type : PacketType
  data : Payload
  deriving DecidableEq, Repr

/-- The four formats of spec/opcode_table.json: which of them a request's code word is read in (log 8). -/
inductive Format where
  | command
  | wireByte
  | stuff
  | typeTag
  deriving DecidableEq, Repr

/-- One constructor per row of spec/opcode_table.json. The first four are the block's operations (00_scope.md R6).
The others are the rows by which the table classifies what the operations work on: a received byte, a byte to
stuff, a type tag; as instructions they do what their row says (log 8). -/
inductive Instr where
  /-- LAYOUT(t) (40_packet_model.md R103). -/
  | layout (t : Byte)
  /-- PACK(t, data, cap, OUT); `out` is the address of OUT[0] (41_pack.md R120, log 12). -/
  | pack (t : Byte) (data : Payload) (cap out : Nat)
  /-- UNPACK(k, c) (42_unpack.md R140). -/
  | unpack (k : Nat) (c : Byte)
  /-- SESSION_INIT(k) (42_unpack.md R150). -/
  | sessionInit (k : Nat)
  /-- UNPACK.ESC_END on session k: esc = 1, c = 0xDC (42_unpack.md R141). -/
  | unpackEscEnd (k : Nat)
  /-- UNPACK.ESC_ESC on session k: esc = 1, c = 0xDD (42_unpack.md R141). -/
  | unpackEscEsc (k : Nat)
  /-- UNPACK.ESC_BAD on session k: esc = 1, c not in 0xDC, 0xDD (42_unpack.md R142). -/
  | unpackEscBad (k : Nat) (c : Byte)
  /-- UNPACK.ESC on session k: esc = 0, c = 0xDB (42_unpack.md R143). -/
  | unpackEsc (k : Nat)
  /-- UNPACK.END_EMPTY on session k: esc = 0, c = 0xC0, idx = 0 (42_unpack.md R144). -/
  | unpackEndEmpty (k : Nat)
  /-- UNPACK.END_FRAME on session k: esc = 0, c = 0xC0, the buffer a packet's unframed encoding (42_unpack.md R145). -/
  | unpackEndFrame (k : Nat)
  /-- UNPACK.END_MALFORMED on session k: esc = 0, c = 0xC0, the buffer not empty and no packet (42_unpack.md R146). -/
  | unpackEndMalformed (k : Nat)
  /-- UNPACK.DATA on session k: esc = 0, c not in 0xC0, 0xDB (42_unpack.md R147). -/
  | unpackData (k : Nat) (c : Byte)
  /-- STUFF.END: the unframed byte 0xC0 (30_encoding.md R71). -/
  | stuffEnd
  /-- STUFF.ESC: the unframed byte 0xDB (30_encoding.md R71). -/
  | stuffEsc
  /-- STUFF.LITERAL: any other unframed byte (30_encoding.md R71). -/
  | stuffLiteral (b : Byte)
  /-- TAG.Quat, 0x00 (30_encoding.md R61). -/
  | tagQuat
  /-- TAG.Acc, 0x01. -/
  | tagAcc
  /-- TAG.Gyro, 0x02. -/
  | tagGyro
  /-- TAG.Mag, 0x03. -/
  | tagMag
  /-- TAG.Color, 0x04. -/
  | tagColor
  /-- TAG.Blink, 0x05. -/
  | tagBlink
  /-- TAG.IR, 0x06. -/
  | tagIR
  /-- TAG.Version, 0x07. -/
  | tagVersion
  /-- TAG.Id, 0x08. -/
  | tagId
  /-- TAG.INVALID, any tag 0x09 to 0xFF (30_encoding.md R62). -/
  | tagInvalid (t : Byte)
  deriving DecidableEq, Repr

end Sys2Proof
end

