-- ==== Sys2Proof/Machine/Operands.lean ====
section
/-! DEFINITION. Constants and operand forms: control bytes, size constants, type tags, KIND, PSIZE, LAYOUT's table,
big-endian assembly of fields (SER_BE, DES_BE, SER, DES), STUFF and FRAME. Pure functions, no state. -/

namespace Sys2Proof

/-! ## Constants (00_scope.md R9 to R11, 30_encoding.md R60) -/

/-- END = 0xC0, the frame end. -/
def endByte : Byte := 0xC0#8

/-- ESC = 0xDB, which begins a two-byte escape. -/
def escByte : Byte := 0xDB#8

/-- ESC_END = 0xDC, the second byte of the escape for 0xC0. -/
def escEndByte : Byte := 0xDC#8

/-- ESC_ESC = 0xDD, the second byte of the escape for 0xDB. -/
def escEscByte : Byte := 0xDD#8

/-- UNPACKED_MAX_SIZE = 17 (00_scope.md R9). -/
def unpackedMaxSize : Nat := 17

/-- PACKET_MAX_SIZE = 34 = 2 * 17 (00_scope.md R10, 90_conflicts.md C3). -/
def packetMaxSize : Nat := 34

/-! ## Type tags (30_encoding.md R61 to R63) -/

/-- The packet type of a tag; none for the invalid tags 0x09 to 0xFF (30_encoding.md R61, R62). -/
def PacketType.ofTag (t : Byte) : Option PacketType :=
  match t.toNat with
  | 0 => some .quat
  | 1 => some .acc
  | 2 => some .gyro
  | 3 => some .mag
  | 4 => some .color
  | 5 => some .blink
  | 6 => some .infraRed
  | 7 => some .version
  | 8 => some .id
  | _ => none

/-- The tag of a packet type (30_encoding.md R61). -/
def PacketType.tag : PacketType → Byte
  | .quat => 0x00#8
  | .acc => 0x01#8
  | .gyro => 0x02#8
  | .mag => 0x03#8
  | .color => 0x04#8
  | .blink => 0x05#8
  | .infraRed => 0x06#8
  | .version => 0x07#8
  | .id => 0x08#8

/-- KIND(t) (30_encoding.md R61). -/
def PacketType.kind : PacketType → PayloadKind
  | .quat => .quat4
  | .acc => .vec3
  | .gyro => .vec3
  | .mag => .vec3
  | .color => .rgb
  | .blink => .empty
  | .infraRed => .empty
  | .version => .word
  | .id => .word

/-- PSIZE(t), the payload's byte count (30_encoding.md R61, R63). -/
def PacketType.psize : PacketType → Nat
  | .quat => 16
  | .acc => 6
  | .gyro => 6
  | .mag => 6
  | .color => 3
  | .blink => 0
  | .infraRed => 0
  | .version => 4
  | .id => 4

/-- LAYOUT's table: (offset, width) of each field, offsets from the first payload byte (40_packet_model.md R102). -/
def PacketType.layout : PacketType → List (Nat × Nat)
  | .quat => [(0, 4), (4, 4), (8, 4), (12, 4)]
  | .acc => [(0, 2), (2, 2), (4, 2)]
  | .gyro => [(0, 2), (2, 2), (4, 2)]
  | .mag => [(0, 2), (2, 2), (4, 2)]
  | .color => [(0, 1), (1, 1), (2, 1)]
  | .blink => []
  | .infraRed => []
  | .version => [(0, 4)]
  | .id => [(0, 4)]

/-! ## Payloads (40_packet_model.md R100, R112) -/

/-- The kind of a payload, its variant. -/
def Payload.kind : Payload → PayloadKind
  | .quat4 _ _ _ _ => .quat4
  | .vec3 _ _ _ => .vec3
  | .rgb _ _ _ => .rgb
  | .word _ => .word
  | .empty => .empty

/-- PACK's input is well-formed: the tag is invalid, or the variant is KIND(t) (40_packet_model.md R112). -/
def packInputOk (t : Byte) (data : Payload) : Bool :=
  match PacketType.ofTag t with
  | none => true
  | some ty => decide (data.kind = ty.kind)

/-- The packet's variant is the one its type asks for (40_packet_model.md R101). -/
def Packet.wellFormed (p : Packet) : Bool :=
  decide (p.data.kind = p.type.kind)

/-- `sint(x)`: the integer a Vec3 field stands for, two's complement (40_packet_model.md R109). -/
def sint (x : Bits16) : Int := x.toInt

/-! ## Field serialization (40_packet_model.md R104 to R107) -/

/-- SER_BE(v, W): the low W bytes of v, most significant first (R104). -/
def serBE {n : Nat} (v : BitVec n) : Nat → List Byte
  | 0 => []
  | w + 1 => v.extractLsb' (8 * w) 8 :: serBE v w

/-- The number a byte list stands for, the first byte most significant; `acc` is what came before. -/
def beNat (acc : Nat) : List Byte → Nat
  | [] => acc
  | b :: bs => beNat (acc * 256 + b.toNat) bs

/-- DES_BE(bs): a byte list as one value of n bits, first byte most significant (R105). -/
def desBE (n : Nat) (bs : List Byte) : BitVec n := BitVec.ofNat n (beNat 0 bs)

/-- xs[i..j) (00_scope.md section 5). -/
def slice (xs : List Byte) (i j : Nat) : List Byte := (xs.drop i).take (j - i)

/-- SER(t, data): the payload bytes, the fields in order, each big-endian (R106). The tag does not matter beyond
the variant. -/
def ser : Payload → List Byte
  | .quat4 w x y z => serBE w 4 ++ serBE x 4 ++ serBE y 4 ++ serBE z 4
  | .vec3 x y z => serBE x 2 ++ serBE y 2 ++ serBE z 2
  | .rgb r g b => [r, g, b]
  | .word v => serBE v 4
  | .empty => []

/-- DES(t, p), for p of length PSIZE(t) (R107). -/
def des (ty : PacketType) (p : List Byte) : Payload :=
  match ty.kind with
  | .quat4 =>
    .quat4 (desBE 32 (slice p 0 4)) (desBE 32 (slice p 4 8)) (desBE 32 (slice p 8 12)) (desBE 32 (slice p 12 16))
  | .vec3 => .vec3 (desBE 16 (slice p 0 2)) (desBE 16 (slice p 2 4)) (desBE 16 (slice p 4 6))
  | .rgb => .rgb (desBE 8 (slice p 0 1)) (desBE 8 (slice p 1 2)) (desBE 8 (slice p 2 3))
  | .word => .word (desBE 32 (slice p 0 4))
  | .empty => .empty

/-- The unframed packet: the type byte, then the payload (30_encoding.md R64, 41_pack.md R121). -/
def unframed (t : Byte) (data : Payload) : List Byte := t :: ser data

/-! ## Stuffing and framing (30_encoding.md R71, R72) -/

/-- STUFF(b), the rows of format stuff tried in the table's order (R71). -/
def stuff (b : Byte) : List Byte :=
  if b = endByte then [escByte, escEndByte]
  else if b = escByte then [escByte, escEscByte]
  else [b]

/-- STUFF over a whole byte list, in order (41_pack.md R122). -/
def stuffAll : List Byte → List Byte
  | [] => []
  | b :: bs => stuff b ++ stuffAll bs

/-- FRAME(u): the stuffed bytes and one END (30_encoding.md R72, 41_pack.md R123). -/
def frame (u : List Byte) : List Byte := stuffAll u ++ [endByte]

/-- e: how many bytes of a list need an escape (30_encoding.md R73). -/
def escapedCount : List Byte → Nat
  | [] => 0
  | b :: bs => (if b = endByte ∨ b = escByte then 1 else 0) + escapedCount bs

end Sys2Proof
end

