-- ==== Sys2Proof/WellFormed.lean ====
section
/-! DEFINITION. Which terms of `Instr` stand for something the spec gives a meaning: PACK's input is well-formed
(40_packet_model.md R112), and a classification row carries only the bytes its row of spec/opcode_table.json
matches. Whether a session index is below N_SESSIONS is checked where the number of sessions is known, in exec. -/

namespace Sys2Proof

/-- The instruction carries operands that its row of the table admits. -/
def Instr.wellFormed : Instr → Bool
  | .layout _ => true
  | .pack t data _ _ => packInputOk t data
  | .unpack _ _ => true
  | .sessionInit _ => true
  | .unpackEscEnd _ => true
  | .unpackEscEsc _ => true
  | .unpackEscBad _ c => decide (c ≠ escEndByte) && decide (c ≠ escEscByte)
  | .unpackEsc _ => true
  | .unpackEndEmpty _ => true
  | .unpackEndFrame _ => true
  | .unpackEndMalformed _ => true
  | .unpackData _ c => decide (c ≠ endByte) && decide (c ≠ escByte)
  | .stuffEnd => true
  | .stuffEsc => true
  | .stuffLiteral b => decide (b ≠ endByte) && decide (b ≠ escByte)
  | .tagQuat => true
  | .tagAcc => true
  | .tagGyro => true
  | .tagMag => true
  | .tagColor => true
  | .tagBlink => true
  | .tagIR => true
  | .tagVersion => true
  | .tagId => true
  | .tagInvalid t => (PacketType.ofTag t).isNone

end Sys2Proof
end

