-- ==== Sys2Proof/Decode.lean ====
section
/-! DEFINITION. The request port's encoding: the decoder, total on any bytes, which rejects by name, and the encoder.
The code words are the spec's (the 2-bit command codes of 30_encoding.md R79, the 9-bit keys of the wire_byte rows,
the bytes of the stuff and type_tag rows of spec/opcode_table.json). How the operand fields follow the code word is
the model's choice, since 30_encoding.md R80 makes them transaction fields (DESIGN CHOICE, safe, log 7). -/

namespace Sys2Proof

/-- Why a request's bytes are no instruction. -/
inductive DecodeError where
  /-- The bytes end before the instruction does. -/
  | truncated
  /-- A command code byte above 0b11 (30_encoding.md R79 has four codes). -/
  | unknownCommand
  /-- A payload variant byte above 4 (40_packet_model.md R100 has five variants). -/
  | unknownPayload
  /-- A wire_byte key of more than 9 bits. -/
  | unknownKey
  /-- A selector above 2 after the key 0x0C0, which three rows of the table share. -/
  | unknownEndRow
  deriving DecidableEq, Repr

/-! ## Reading operand fields -/

/-- One byte. -/
def readByte : List Byte → Except DecodeError (Byte × List Byte)
  | [] => .error .truncated
  | b :: bs => .ok (b, bs)

/-- A natural number: base 128, least significant digit first; a byte with bit 7 set is followed by another. -/
def readNat : List Byte → Except DecodeError (Nat × List Byte)
  | [] => .error .truncated
  | b :: bs =>
    if b.toNat < 128 then .ok (b.toNat, bs)
    else
      match readNat bs with
      | .error e => .error e
      | .ok (n, rest) => .ok (b.toNat - 128 + 128 * n, rest)

/-- A big-endian field of `w` bytes as `n` bits. -/
def readField (n w : Nat) (bs : List Byte) : Except DecodeError (BitVec n × List Byte) :=
  if bs.length < w then .error .truncated else .ok (desBE n (bs.take w), bs.drop w)

/-- A payload: its variant (0 Quat4, 1 Vec3, 2 Rgb, 3 Word, 4 Empty), then its fields, big-endian. -/
def readPayload (bs : List Byte) : Except DecodeError (Payload × List Byte) := do
  let (v, bs) ← readByte bs
  match v.toNat with
  | 0 =>
    let (w, bs) ← readField 32 4 bs
    let (x, bs) ← readField 32 4 bs
    let (y, bs) ← readField 32 4 bs
    let (z, bs) ← readField 32 4 bs
    .ok (.quat4 w x y z, bs)
  | 1 =>
    let (x, bs) ← readField 16 2 bs
    let (y, bs) ← readField 16 2 bs
    let (z, bs) ← readField 16 2 bs
    .ok (.vec3 x y z, bs)
  | 2 =>
    let (r, bs) ← readByte bs
    let (g, bs) ← readByte bs
    let (b, bs) ← readByte bs
    .ok (.rgb r g b, bs)
  | 3 =>
    let (v, bs) ← readField 32 4 bs
    .ok (.word v, bs)
  | 4 => .ok (.empty, bs)
  | _ => .error .unknownPayload

/-! ## The decoder, one function per format of the table -/

/-- A command: its code in one byte (bits 1:0; bits 7:2 are 0), then its operand fields in the order of
30_encoding.md R80. -/
def decodeCommand (bs : List Byte) : Except DecodeError Instr := do
  let (op, bs) ← readByte bs
  match op.toNat with
  | 0 =>
    let (t, _) ← readByte bs
    .ok (.layout t)
  | 1 =>
    let (t, bs) ← readByte bs
    let (data, bs) ← readPayload bs
    let (cap, bs) ← readNat bs
    let (out, _) ← readNat bs
    .ok (.pack t data cap out)
  | 2 =>
    let (k, bs) ← readNat bs
    let (c, _) ← readByte bs
    .ok (.unpack k c)
  | 3 =>
    let (k, _) ← readNat bs
    .ok (.sessionInit k)
  | _ => .error .unknownCommand

/-- The row of the key 0x0C0 that a selector byte names, in the table's order (log 9). -/
def decodeEndRow (k : Nat) (row : Byte) : Except DecodeError Instr :=
  match row.toNat with
  | 0 => .ok (.unpackEndEmpty k)
  | 1 => .ok (.unpackEndFrame k)
  | 2 => .ok (.unpackEndMalformed k)
  | _ => .error .unknownEndRow

/-- A wire_byte row: the 9-bit key (bit 8 = esc, bits 7:0 = c) in two bytes, low byte first, then the session
index; the rows are tried in the table's order. -/
def decodeWireByte (bs : List Byte) : Except DecodeError Instr := do
  let (c, bs) ← readByte bs
  let (esc, bs) ← readByte bs
  let (k, bs) ← readNat bs
  match esc.toNat with
  | 0 =>
    if c = escByte then .ok (.unpackEsc k)
    else if c = endByte then
      let (row, _) ← readByte bs
      decodeEndRow k row
    else .ok (.unpackData k c)
  | 1 =>
    if c = escEndByte then .ok (.unpackEscEnd k)
    else if c = escEscByte then .ok (.unpackEscEsc k)
    else .ok (.unpackEscBad k c)
  | _ => .error .unknownKey

/-- A stuff row: the unframed byte; the rows are tried in the table's order. -/
def decodeStuff (bs : List Byte) : Except DecodeError Instr := do
  let (b, _) ← readByte bs
  if b = endByte then .ok .stuffEnd
  else if b = escByte then .ok .stuffEsc
  else .ok (.stuffLiteral b)

/-- A type_tag row: the tag; the rows are tried in the table's order. -/
def decodeTypeTag (bs : List Byte) : Except DecodeError Instr := do
  let (t, _) ← readByte bs
  match PacketType.ofTag t with
  | some .quat => .ok .tagQuat
  | some .acc => .ok .tagAcc
  | some .gyro => .ok .tagGyro
  | some .mag => .ok .tagMag
  | some .color => .ok .tagColor
  | some .blink => .ok .tagBlink
  | some .infraRed => .ok .tagIR
  | some .version => .ok .tagVersion
  | some .id => .ok .tagId
  | none => .ok (.tagInvalid t)

/-- The instruction at the head of a request's bytes; bytes after its last operand are not read. -/
def decode (f : Format) (bs : List Byte) : Except DecodeError Instr :=
  match f with
  | .command => decodeCommand bs
  | .wireByte => decodeWireByte bs
  | .stuff => decodeStuff bs
  | .typeTag => decodeTypeTag bs

/-! ## The encoder -/

/-- The base-128 digits of `n`, least significant first, given at least `n` as fuel. -/
def natDigits : Nat → Nat → List Byte
  | 0, n => [BitVec.ofNat 8 n]
  | fuel + 1, n =>
    if n < 128 then [BitVec.ofNat 8 n] else BitVec.ofNat 8 (n % 128 + 128) :: natDigits fuel (n / 128)

/-- The bytes of a natural number, as `readNat` reads them. -/
def encodeNat (n : Nat) : List Byte := natDigits n n

/-- The bytes of a payload, as `readPayload` reads them: the variant, then SER (40_packet_model.md R106). -/
def encodePayload : Payload → List Byte
  | .quat4 w x y z => 0#8 :: ser (.quat4 w x y z)
  | .vec3 x y z => 1#8 :: ser (.vec3 x y z)
  | .rgb r g b => 2#8 :: ser (.rgb r g b)
  | .word v => 3#8 :: ser (.word v)
  | .empty => 4#8 :: ser .empty

/-- The format of an instruction's row. -/
def Instr.format : Instr → Format
  | .layout _ => .command
  | .pack _ _ _ _ => .command
  | .unpack _ _ => .command
  | .sessionInit _ => .command
  | .unpackEscEnd _ => .wireByte
  | .unpackEscEsc _ => .wireByte
  | .unpackEscBad _ _ => .wireByte
  | .unpackEsc _ => .wireByte
  | .unpackEndEmpty _ => .wireByte
  | .unpackEndFrame _ => .wireByte
  | .unpackEndMalformed _ => .wireByte
  | .unpackData _ _ => .wireByte
  | .stuffEnd => .stuff
  | .stuffEsc => .stuff
  | .stuffLiteral _ => .stuff
  | .tagQuat => .typeTag
  | .tagAcc => .typeTag
  | .tagGyro => .typeTag
  | .tagMag => .typeTag
  | .tagColor => .typeTag
  | .tagBlink => .typeTag
  | .tagIR => .typeTag
  | .tagVersion => .typeTag
  | .tagId => .typeTag
  | .tagInvalid _ => .typeTag

/-- The bytes of an instruction: its row's code word, then its operand fields. -/
def encode : Instr → List Byte
  | .layout t => [0#8, t]
  | .pack t data cap out => 1#8 :: t :: (encodePayload data ++ (encodeNat cap ++ encodeNat out))
  | .unpack k c => 2#8 :: (encodeNat k ++ [c])
  | .sessionInit k => 3#8 :: encodeNat k
  | .unpackEscEnd k => 0xDC#8 :: 1#8 :: encodeNat k
  | .unpackEscEsc k => 0xDD#8 :: 1#8 :: encodeNat k
  | .unpackEscBad k c => c :: 1#8 :: encodeNat k
  | .unpackEsc k => 0xDB#8 :: 0#8 :: encodeNat k
  | .unpackEndEmpty k => 0xC0#8 :: 0#8 :: (encodeNat k ++ [0#8])
  | .unpackEndFrame k => 0xC0#8 :: 0#8 :: (encodeNat k ++ [1#8])
  | .unpackEndMalformed k => 0xC0#8 :: 0#8 :: (encodeNat k ++ [2#8])
  | .unpackData k c => c :: 0#8 :: encodeNat k
  | .stuffEnd => [0xC0#8]
  | .stuffEsc => [0xDB#8]
  | .stuffLiteral b => [b]
  | .tagQuat => [0#8]
  | .tagAcc => [1#8]
  | .tagGyro => [2#8]
  | .tagMag => [3#8]
  | .tagColor => [4#8]
  | .tagBlink => [5#8]
  | .tagIR => [6#8]
  | .tagVersion => [7#8]
  | .tagId => [8#8]
  | .tagInvalid t => [t]

/-! ## The words of spec/opcode_table.json -/

/-- The format a bare word of the table is read in. The table's four formats share words (0x01 is PACK and TAG.Acc),
so a word alone does not always name its row: a word of 9 to 16 bits is a wire_byte key, a longer one TAG.Quat's
(the reader's listing gives that row a 17th bit), and a byte is the command, the tag or the stuff row whose value it
is, commands first (log 10). -/
def tableFormat (nbits w : Nat) : Format :=
  if 16 < nbits then .typeTag
  else if 8 < nbits then .wireByte
  else if w < 4 then .command
  else if w < 9 then .typeTag
  else .stuff

/-- A table word as the bytes of a request: byte i holds bits 8i+7 to 8i, and every operand byte is zero. -/
def tableBytes (nbits w : Nat) : List Byte :=
  (List.range ((nbits + 7) / 8)).map (fun i => BitVec.ofNat 8 (w >>> (8 * i))) ++ List.replicate 32 0#8

/-- The instruction the decoder reads from a table word, operand words of zeros. -/
def decodeTableWord (nbits w : Nat) : Option Instr :=
  match decode (tableFormat nbits w) (tableBytes nbits w) with
  | .ok i => some i
  | .error _ => none

end Sys2Proof
end

