-- ==== Sys2Proof/Machine/State.lean ====
section
/-! DEFINITION. The state of the block (10_state.md), the result values of its operations (10_state.md R29), the
reasons a step can stop, and the state after reset. Plain data throughout. -/

namespace Sys2Proof.Machine

/-- One decoder session SESS[k] (10_state.md R22). `S[k].idx` is the length of `buf`: the buffer is held as the
list of its meaningful bytes, as 10_state.md R24 allows (log 4). -/
structure Session where
  /-- `S[k].esc`, the escape flag (R26). -/
  esc : Bool
  /-- `S[k].buf[0..idx)`, in arrival order. -/
  buf : List Byte
  /-- The caller that created the session and alone may drive it (70_reset_and_hazards.md R245). The model's
  own field (log 11). -/
  driver : Nat
  deriving DecidableEq, Repr

/-- The five error kinds (60_exceptions.md R200). -/
inductive ErrorKind where
  | invalidType
  | bufferTooSmall
  | framingError
  | malformedPacket
  | overflow
  deriving DecidableEq, Repr

/-- The result value of an operation (10_state.md R29), or what a classification row gives (log 8). -/
inductive Result where
  /-- LAYOUT: Ok(list of (offset, width)). -/
  | layout (fields : List (Nat × Nat))
  /-- PACK: Ok(n). -/
  | packed (n : Nat)
  /-- UNPACK: Incomplete. -/
  | incomplete
  /-- UNPACK: PacketReady(p). -/
  | packetReady (p : Packet)
  /-- SESSION_INIT: unit. -/
  | unit
  /-- LAYOUT, PACK, UNPACK: Error(kind). -/
  | error (e : ErrorKind)
  /-- A stuff row: the wire bytes of one unframed byte. -/
  | stuffed (wire : List Byte)
  /-- A type_tag row: KIND and PSIZE of the tag. -/
  | tagged (kind : PayloadKind) (psize : Nat)
  /-- TAG.INVALID: the tag selects no layout. -/
  | untagged
  deriving DecidableEq, Repr

/-- One operation HOST has issued: who issued it, the format its code word is read in, and its bytes (log 6). -/
structure Request where
  caller : Nat
  format : Format
  bytes : List Byte
  deriving DecidableEq, Repr

/-- The state. -/
structure State where
  /-- SESS[0] to SESS[N_SESSIONS-1]; none: not created yet. N_SESSIONS is the length (00_scope.md R5, R12). -/
  sessions : List (Option Session)
  /-- The callers' bytes, in which every OUT buffer lies (10_state.md R28, 20_memory.md R40): addresses strictly
  rising; an address not listed holds the caller's own contents, which the model does not know (log 12). -/
  mem : List Host.Cell
  /-- PACK_ERR_PRIORITY, an open parameter; no step changes it (00_scope.md R12, log 2). -/
  priority : PackErrPriority
  /-- The result the last operation returned; none before the first. The model's own field (10_state.md R29, log 5). -/
  result : Option Result
  /-- The operations HOST has issued and the block has not yet performed, first to perform first. The model's own
  field (70_reset_and_hazards.md R242, log 6). -/
  queue : List Request
  /-- The caller whose operation is performed. The model's own field (log 11). -/
  caller : Nat
  /-- How many free bytes have been drawn. The model's own field (41_pack.md R123, log 3). -/
  draws : Nat
  deriving DecidableEq, Repr

/-- A step of this block never ends in a fault: every error is a result value of an operation that completes
(60_exceptions.md R208), so no one raises a fault and there is no constructor (log 17; safe). -/
inductive Fault where
  deriving DecidableEq, Repr

/-- Why the model gives a step no meaning. Every one is safe: the model stops. -/
inductive Refusal where
  /-- An instruction that has no meaning yet; raised by exec's arms only. None is left. -/
  | notModelled (mnemonic : String)
  /-- The request's bytes are no instruction; raised by step (log 7). -/
  | undecodable (e : DecodeError)
  /-- The session index is not below N_SESSIONS (30_encoding.md R80); raised by UNPACK, its rows, SESSION_INIT
  (log 15). -/
  | noSuchSession
  /-- The session was never initialised (70_reset_and_hazards.md R243); raised by UNPACK and its rows (log 14). -/
  | uninitialisedSession
  /-- The session is driven by another caller (20_memory.md R55, 70_reset_and_hazards.md R245); raised by UNPACK, its
  rows and SESSION_INIT (log 11). -/
  | sharedSession
  /-- PACK's tag is valid and its data variant is not KIND(t) (40_packet_model.md R112); raised by PACK (log 16). -/
  | payloadMismatch
  /-- A classification row is named where the table's condition for it does not hold; raised by the rows of the
  formats wire_byte, stuff and type_tag (log 8). -/
  | rowNotSelected
  deriving DecidableEq, Repr

/-- The state before any operation, for any value of the two open parameters (00_scope.md R12): no session has been
created, no byte of any OUT is known, nothing was issued or returned (95_test_vectors.md section 6). -/
def State.init (nSessions : Nat) (priority : PackErrPriority) : State where
  sessions := List.replicate nSessions none
  mem := []
  priority := priority
  result := none
  queue := []
  caller := 0
  draws := 0

/-- The machine right after reset (70_reset_and_hazards.md R240, R242). -/
def State.reset : State := State.init Config.nSessions Config.packErrPriority

end Sys2Proof.Machine
end

