-- ==== Sys2Proof/Machine/Flags.lean ====
section
/-! DEFINITION. The block's one flag, esc (10_state.md R26), and the decoder's named states, which are functions of
esc and idx (10_state.md R25). -/

namespace Sys2Proof.Machine

/-- `S.esc <- 1` (42_unpack.md R143). -/
def Session.setEsc (S : Session) : Session := { S with esc := true }

/-- `S.esc <- 0` (42_unpack.md R141, 10_state.md R27). -/
def Session.clearEsc (S : Session) : Session := { S with esc := false }

/-- `S.idx` (10_state.md R22, R24). -/
def Session.idx (S : Session) : Nat := S.buf.length

/-- The named decoder states (10_state.md R25). -/
inductive DecoderState where
  | idle
  | accumulating
  | escapePending
  deriving DecidableEq, Repr

/-- The named state of a session (10_state.md R25). -/
def Session.decoderState (S : Session) : DecoderState :=
  if S.esc then .escapePending else if S.idx = 0 then .idle else .accumulating

end Sys2Proof.Machine
end

