-- ==== Sys2Proof/Machine/Ops.lean ====
section
/-! DEFINITION. The named operations over memory, sessions and the result port, raising an error (the block's only
exception mechanism, 60_exceptions.md section 2), and fetching the next request. -/

namespace Sys2Proof.Machine

/-- What a step answers. -/
abbrev Answer := Host.Outcome State Fault Refusal

/-! ## Memory: the callers' bytes (20_memory.md R40) -/

/-- Addresses strictly rising. Every listed value is a byte some PACK wrote, and an unlisted address reads as no
value, so no listed entry can equal it. -/
abbrev Memory.wf (m : List Host.Cell) : Prop := m.Pairwise (fun x y => x.1 < y.1)

/-- The byte at an address; none where only the caller has written (log 12). No operation of the block reads OUT
(20_memory.md R40): this is for claims and for HOST. -/
def Memory.read : List Host.Cell → Nat → Option Byte
  | [], _ => none
  | (x, b) :: m, a => if x = a then some b else Memory.read m a

/-- Consecutive cells from an address. -/
def Memory.run (base : Nat) : List Byte → List Host.Cell
  | [] => []
  | b :: bs => (base, b) :: Memory.run (base + 1) bs

/-- The bytes bs written to base, base + 1, ...: MemWrite(OUT, i, bs[i]) for every i (41_pack.md R123). -/
def Memory.writeRun (m : List Host.Cell) (base : Nat) (bs : List Byte) : List Host.Cell :=
  m.filter (fun c => decide (c.1 < base)) ++ Memory.run base bs
    ++ m.filter (fun c => decide (base + bs.length ≤ c.1))

/-- The next n free bytes from a draw counter: arbitrary values (41_pack.md R123, log 3). -/
def freeBytes (draw : Nat) : Nat → List Byte
  | 0 => []
  | n + 1 => Config.freeByte draw :: freeBytes (draw + 1) n

/-! ## The state -/

/-- The byte of the callers' memory at an address. -/
def State.readByte (s : State) (a : Nat) : Option Byte := Memory.read s.mem a

/-- The operation returns a result (10_state.md R29). -/
def State.answer (s : State) (r : Result) : State := { s with result := some r }

/-- S[k] takes a new value. -/
def State.setSession (s : State) (k : Nat) (S : Session) : State :=
  { s with sessions := s.sessions.set k (some S) }

/-- A successful PACK's write: the frame w to OUT[0..n), any bytes to OUT[n..cap) (41_pack.md R120, R123). -/
def State.writeOut (s : State) (out cap : Nat) (w : List Byte) : State :=
  { s with
    mem := Memory.writeRun s.mem out (w ++ freeBytes s.draws (cap - w.length))
    draws := s.draws + (cap - w.length) }

/-- Session k as the operation's caller may use it, or why it may not: the index is in range (30_encoding.md R80),
the session has been initialised (70_reset_and_hazards.md R243), and no other caller drives it (R245). -/
def State.openSession (s : State) (k : Nat) : Except Refusal Session :=
  match s.sessions[k]? with
  | none => .error .noSuchSession
  | some none => .error .uninitialisedSession
  | some (some S) => if S.driver = s.caller then .ok S else .error .sharedSession

/-- Session k takes its new value and the operation returns. -/
def State.commit (s : State) (k : Nat) (r : Session × Result) : State := (s.setSession k r.1).answer r.2

/-! ## Sessions (10_state.md R27, 42_unpack.md R148) -/

/-- EMPTY(S): esc <- 0, idx <- 0 (10_state.md R27). -/
def Session.empty (S : Session) : Session := { S.clearEsc with buf := [] }

/-- A fresh session, Idle, driven by the caller that creates it (10_state.md R31, log 11). -/
def Session.fresh (caller : Nat) : Session where
  esc := false
  buf := []
  driver := caller

/-- The session that SESSION_INIT(k) leaves, or why its caller may not issue it: the index is in range
(30_encoding.md R80), and no other caller drives the session (20_memory.md R55, 70_reset_and_hazards.md R245). A
session not yet created is created, and one its caller drives is emptied (42_unpack.md R150). -/
def State.initSession (s : State) (k : Nat) : Except Refusal Session :=
  match s.sessions[k]? with
  | none => .error .noSuchSession
  | some none => .ok (Session.fresh s.caller)
  | some (some S) => if S.driver = s.caller then .ok S.empty else .error .sharedSession

/-! ## Raising an error: an error is a result value, and this is all it does (60_exceptions.md R206 to R208) -/

/-- `raise e` in LAYOUT and PACK: no state changes (R206). -/
def State.raise (s : State) (e : ErrorKind) : State := s.answer (.error e)

/-- `raise e` in UNPACK: the session is emptied (R207). -/
def Session.raise (S : Session) (e : ErrorKind) : Session × Result := (S.empty, .error e)

/-- The numeric code of an error kind (60_exceptions.md R200). -/
def ErrorKind.code : ErrorKind → Nat
  | .invalidType => 1
  | .bufferTooSmall => 2
  | .framingError => 3
  | .malformedPacket => 4
  | .overflow => 5

/-- APPEND(S, b) (42_unpack.md R148). -/
def Session.append (S : Session) (b : Byte) : Session × Result :=
  if S.idx = unpackedMaxSize then S.raise .overflow
  else ({ S with buf := S.buf ++ [b] }, .incomplete)

/-! ## Fetching the next operation -/

/-- The next request HOST issued, and the state in which it is performed: the request is gone from the queue and its
caller is the caller of the operation. None when nothing is issued (70_reset_and_hazards.md R242). -/
def State.fetch (s : State) : Option (Request × State) :=
  match s.queue with
  | [] => none
  | r :: rest => some (r, { s with queue := rest, caller := r.caller })

end Sys2Proof.Machine
end

