-- ==== Sys2Proof/Machine/Layout.lean ====
section
/-! DEFINITION. LAYOUT (40_packet_model.md R103). -/

namespace Sys2Proof.Machine

/-- LAYOUT(t): the table's row for a valid tag, InvalidType otherwise; no state is written. -/
def execLayout (t : Byte) (s : State) : Answer :=
  match PacketType.ofTag t with
  | none => .next (s.raise .invalidType)
  | some ty => .next (s.answer (.layout ty.layout))

end Sys2Proof.Machine
end

