-- ==== Sys2Proof/Machine/Pack.lean ====
section
/-! DEFINITION. PACK (41_pack.md R120 to R125). -/

namespace Sys2Proof.Machine

/-- The error PACK raises, if any: BufferTooSmall when cap < PACKET_MAX_SIZE, InvalidType when the tag is invalid,
and PACK_ERR_PRIORITY decides when both hold (41_pack.md R124). -/
def packError (priority : PackErrPriority) (t : Byte) (cap : Nat) : Option ErrorKind :=
  if cap < packetMaxSize then
    if (PacketType.ofTag t).isNone then
      match priority with
      | .capacityFirst => some .bufferTooSmall
      | .typeFirst => some .invalidType
    else some .bufferTooSmall
  else if (PacketType.ofTag t).isNone then some .invalidType
  else none

/-- PACK(t, data, cap, OUT) (41_pack.md R120). An input that is not well-formed has no meaning (40_packet_model.md
R112, log 16). -/
def execPack (t : Byte) (data : Payload) (cap out : Nat) (s : State) : Answer :=
  if packInputOk t data then
    match packError s.priority t cap with
    | some e => .next (s.raise e)
    | none =>
      let w := frame (unframed t data)
      .next ((s.writeOut out cap w).answer (.packed w.length))
  else .refused .payloadMismatch

end Sys2Proof.Machine
end

