-- ==== Sys2Proof/Machine/SessionInit.lean ====
section
/-! DEFINITION. SESSION_INIT (42_unpack.md R150). -/

namespace Sys2Proof.Machine

/-- SESSION_INIT(k): session k is created fresh for its caller, or emptied by the caller that drives it
(42_unpack.md R150, 70_reset_and_hazards.md R240, R244); by any other caller it is refused (20_memory.md R55,
70_reset_and_hazards.md R245, log 11). -/
def execSessionInit (k : Nat) (s : State) : Answer :=
  match s.initSession k with
  | .error r => .refused r
  | .ok S => .next (s.commit k (S, .unit))

end Sys2Proof.Machine
end

