-- ==== Sys2Proof/Machine/Stuff.lean ====
section
/-! DEFINITION. The rows of format stuff (30_encoding.md R71): what STUFF gives one unframed byte. They change no
state and return the wire bytes (log 8). -/

namespace Sys2Proof.Machine

/-- STUFF.END: 0xC0 becomes 0xDB, 0xDC. -/
def execStuffEnd (s : State) : Answer := .next (s.answer (.stuffed (stuff endByte)))

/-- STUFF.ESC: 0xDB becomes 0xDB, 0xDD. -/
def execStuffEsc (s : State) : Answer := .next (s.answer (.stuffed (stuff escByte)))

/-- STUFF.LITERAL: any other byte is copied; the row does not match 0xC0 and 0xDB. -/
def execStuffLiteral (b : Byte) (s : State) : Answer :=
  if b = endByte ∨ b = escByte then .refused .rowNotSelected
  else .next (s.answer (.stuffed (stuff b)))

end Sys2Proof.Machine
end

