-- ==== Sys2Proof/Machine/Tag.lean ====
section
/-! DEFINITION. The rows of format type_tag (30_encoding.md R61, R62): what a type tag selects. They change no state
and return KIND and PSIZE (log 8). -/

namespace Sys2Proof.Machine

/-- The row of a valid tag: its payload kind and its payload size. -/
def tagRow (ty : PacketType) (s : State) : Answer := .next (s.answer (.tagged ty.kind ty.psize))

/-- TAG.Quat. -/
def execTagQuat (s : State) : Answer := tagRow .quat s

/-- TAG.Acc. -/
def execTagAcc (s : State) : Answer := tagRow .acc s

/-- TAG.Gyro. -/
def execTagGyro (s : State) : Answer := tagRow .gyro s

/-- TAG.Mag. -/
def execTagMag (s : State) : Answer := tagRow .mag s

/-- TAG.Color. -/
def execTagColor (s : State) : Answer := tagRow .color s

/-- TAG.Blink. -/
def execTagBlink (s : State) : Answer := tagRow .blink s

/-- TAG.IR. -/
def execTagIR (s : State) : Answer := tagRow .infraRed s

/-- TAG.Version. -/
def execTagVersion (s : State) : Answer := tagRow .version s

/-- TAG.Id. -/
def execTagId (s : State) : Answer := tagRow .id s

/-- TAG.INVALID: the tag selects nothing; the row matches only after the nine valid ones fail. -/
def execTagInvalid (t : Byte) (s : State) : Answer :=
  match PacketType.ofTag t with
  | none => .next (s.answer .untagged)
  | some _ => .refused .rowNotSelected

end Sys2Proof.Machine
end

