-- ==== Sys2Proof/Machine/Unpack.lean ====
section
/-! DEFINITION. UNPACK (42_unpack.md R140 to R149) and its eight rows of format wire_byte. -/

namespace Sys2Proof.Machine

/-- The eight cases of UNPACK, as spec/opcode_table.json names them. -/
inductive WireRow where
  | escEnd
  | escEsc
  | escBad
  | esc
  | endEmpty
  | endFrame (p : Packet)
  | endMalformed
  | data
  deriving DecidableEq, Repr

/-- The packet whose unframed encoding the buffer holds: a valid type byte and a payload of PSIZE(t) bytes
(42_unpack.md R145); none otherwise (R146). -/
def Session.received (S : Session) : Option Packet :=
  match S.buf with
  | [] => none
  | t :: p =>
    match PacketType.ofTag t with
    | none => none
    | some ty => if p.length = ty.psize then some { type := ty, data := des ty p } else none

/-- Which case a byte takes, tried in the order of 42_unpack.md R149. -/
def Session.classify (S : Session) (c : Byte) : WireRow :=
  if S.esc then
    if c = escEndByte then .escEnd
    else if c = escEscByte then .escEsc
    else .escBad
  else if c = escByte then .esc
  else if c = endByte then
    if S.idx = 0 then .endEmpty
    else
      match S.received with
      | some p => .endFrame p
      | none => .endMalformed
  else .data

/-- What a case does with the session and the byte (42_unpack.md R141 to R148). -/
def Session.takeRow (S : Session) (c : Byte) : WireRow → Session × Result
  | .escEnd => S.clearEsc.append endByte
  | .escEsc => S.clearEsc.append escByte
  | .escBad => S.raise .framingError
  | .esc => (S.setEsc, .incomplete)
  | .endEmpty => (S, .incomplete)
  | .endFrame p => (S.empty, .packetReady p)
  | .endMalformed => S.raise .malformedPacket
  | .data => S.append c

/-- UNPACK on one session: the case the byte takes, and what it does (42_unpack.md R140). -/
def Session.unpack (S : Session) (c : Byte) : Session × Result := S.takeRow c (S.classify c)

/-- UNPACK(k, c) (42_unpack.md R140). -/
def execUnpack (k : Nat) (c : Byte) (s : State) : Answer :=
  match s.openSession k with
  | .error r => .refused r
  | .ok S => .next (s.commit k (S.unpack c))

/-- UNPACK(k, c) as one row of the table: refused where the row's condition does not hold (log 8). -/
def unpackRow (selected : WireRow → Bool) (k : Nat) (c : Byte) (s : State) : Answer :=
  match s.openSession k with
  | .error r => .refused r
  | .ok S => if selected (S.classify c) then .next (s.commit k (S.unpack c)) else .refused .rowNotSelected

/-- UNPACK.ESC_END (42_unpack.md R141). -/
def execUnpackEscEnd (k : Nat) (s : State) : Answer := unpackRow (fun r => r matches .escEnd) k escEndByte s

/-- UNPACK.ESC_ESC (42_unpack.md R141). -/
def execUnpackEscEsc (k : Nat) (s : State) : Answer := unpackRow (fun r => r matches .escEsc) k escEscByte s

/-- UNPACK.ESC_BAD (42_unpack.md R142). -/
def execUnpackEscBad (k : Nat) (c : Byte) (s : State) : Answer := unpackRow (fun r => r matches .escBad) k c s

/-- UNPACK.ESC (42_unpack.md R143). -/
def execUnpackEsc (k : Nat) (s : State) : Answer := unpackRow (fun r => r matches .esc) k escByte s

/-- UNPACK.END_EMPTY (42_unpack.md R144). -/
def execUnpackEndEmpty (k : Nat) (s : State) : Answer := unpackRow (fun r => r matches .endEmpty) k endByte s

/-- UNPACK.END_FRAME (42_unpack.md R145). -/
def execUnpackEndFrame (k : Nat) (s : State) : Answer := unpackRow (fun r => r matches .endFrame _) k endByte s

/-- UNPACK.END_MALFORMED (42_unpack.md R146). -/
def execUnpackEndMalformed (k : Nat) (s : State) : Answer := unpackRow (fun r => r matches .endMalformed) k endByte s

/-- UNPACK.DATA (42_unpack.md R147). -/
def execUnpackData (k : Nat) (c : Byte) (s : State) : Answer := unpackRow (fun r => r matches .data) k c s

end Sys2Proof.Machine
end

