-- ==== Sys2Proof/Machine/Dispatch.lean ====
section
/-! DEFINITION. One arm per constructor of Instr, each one direct call of its meaning. -/

namespace Sys2Proof.Machine

def exec (i : Instr) (s : State) : Host.Outcome State Fault Refusal :=
  match i with
  | .layout t => Sys2Proof.Machine.execLayout t s
  | .pack t data cap out => Sys2Proof.Machine.execPack t data cap out s
  | .unpack k c => Sys2Proof.Machine.execUnpack k c s
  | .sessionInit k => Sys2Proof.Machine.execSessionInit k s
  | .unpackEscEnd k => Sys2Proof.Machine.execUnpackEscEnd k s
  | .unpackEscEsc k => Sys2Proof.Machine.execUnpackEscEsc k s
  | .unpackEscBad k c => Sys2Proof.Machine.execUnpackEscBad k c s
  | .unpackEsc k => Sys2Proof.Machine.execUnpackEsc k s
  | .unpackEndEmpty k => Sys2Proof.Machine.execUnpackEndEmpty k s
  | .unpackEndFrame k => Sys2Proof.Machine.execUnpackEndFrame k s
  | .unpackEndMalformed k => Sys2Proof.Machine.execUnpackEndMalformed k s
  | .unpackData k c => Sys2Proof.Machine.execUnpackData k c s
  | .stuffEnd => Sys2Proof.Machine.execStuffEnd s
  | .stuffEsc => Sys2Proof.Machine.execStuffEsc s
  | .stuffLiteral b => Sys2Proof.Machine.execStuffLiteral b s
  | .tagQuat => Sys2Proof.Machine.execTagQuat s
  | .tagAcc => Sys2Proof.Machine.execTagAcc s
  | .tagGyro => Sys2Proof.Machine.execTagGyro s
  | .tagMag => Sys2Proof.Machine.execTagMag s
  | .tagColor => Sys2Proof.Machine.execTagColor s
  | .tagBlink => Sys2Proof.Machine.execTagBlink s
  | .tagIR => Sys2Proof.Machine.execTagIR s
  | .tagVersion => Sys2Proof.Machine.execTagVersion s
  | .tagId => Sys2Proof.Machine.execTagId s
  | .tagInvalid t => Sys2Proof.Machine.execTagInvalid t s

end Sys2Proof.Machine
end

