-- ==== Sys2Proof/Machine/Step.lean ====
section
/-! DEFINITION. One step: perform the next operation HOST has issued (00_scope.md R6, 70_reset_and_hazards.md R242);
with nothing issued, nothing happens (log 6). -/

namespace Sys2Proof.Machine

def step (s : State) : Host.Outcome State Fault Refusal :=
  match s.fetch with
  | none => .next s
  | some (r, s') =>
    match decode r.format r.bytes with
    | .error e => .refused (.undecodable e)
    | .ok i => exec i s'

/-- s with a table word as the next request issued, by the caller of the moment (log 6, log 10). -/
def State.withFetchWord (s : State) (nbits w : Nat) : State :=
  { s with queue := ⟨s.caller, tableFormat nbits w, tableBytes nbits w⟩ :: s.queue }

end Sys2Proof.Machine
end

