-- ==== Sys2Proof/Safety.lean ====
section
/-! DEFINITION. The terms claims use: what a legal state is, who may use a session, the state an operation on a session
leaves, UNPACK's pseudocode as the spec writes it, feeding a byte list (70_reset_and_hazards.md R253), what the byte
sink sees. Nothing here is part of the machine. -/

namespace Sys2Proof

/-- The session an instruction works on; none for LAYOUT, PACK and the stuff and type_tag rows. -/
def Instr.session : Instr → Option Nat
  | .layout _ => none
  | .pack _ _ _ _ => none
  | .unpack k _ => some k
  | .sessionInit k => some k
  | .unpackEscEnd k => some k
  | .unpackEscEsc k => some k
  | .unpackEscBad k _ => some k
  | .unpackEsc k => some k
  | .unpackEndEmpty k => some k
  | .unpackEndFrame k => some k
  | .unpackEndMalformed k => some k
  | .unpackData k _ => some k
  | .stuffEnd => none
  | .stuffEsc => none
  | .stuffLiteral _ => none
  | .tagQuat => none
  | .tagAcc => none
  | .tagGyro => none
  | .tagMag => none
  | .tagColor => none
  | .tagBlink => none
  | .tagIR => none
  | .tagVersion => none
  | .tagId => none
  | .tagInvalid _ => none

end Sys2Proof

namespace Sys2Proof.Machine

/-! ## Legal states -/

/-- `S[k].idx <= UNPACKED_MAX_SIZE` for a created session (10_state.md R22, R23). -/
def sessionBounded : Option Session → Bool
  | none => true
  | some S => decide (S.buf.length ≤ unpackedMaxSize)

/-- The nine packet types. -/
def allPacketTypes : List PacketType :=
  [.quat, .acc, .gyro, .mag, .color, .blink, .infraRed, .version, .id]

/-- A result value that some operation can return (10_state.md R29): a layout of the table, a length in 2 .. 34
(41_pack.md R126), a packet whose variant is its type's kind (40_packet_model.md R101), one or two stuffed bytes. -/
def Result.legal : Result → Bool
  | .layout fields => allPacketTypes.any (fun ty => decide (fields = ty.layout))
  | .packed n => decide (2 ≤ n) && decide (n ≤ packetMaxSize)
  | .incomplete => true
  | .packetReady p => p.wellFormed
  | .unit => true
  | .error _ => true
  | .stuffed wire => decide (wire.length = 1) || decide (wire.length = 2)
  | .tagged kind psize => allPacketTypes.any (fun ty => decide (kind = ty.kind ∧ psize = ty.psize))
  | .untagged => true

/-- No result yet, or a legal one. -/
def resultLegal : Option Result → Bool
  | none => true
  | some r => r.legal

/-- The states the machine may be in: there is a session slot (00_scope.md R12), every buffer is within its bound
(10_state.md R23), memory is canonical, and the last result is one the operations return. -/
abbrev State.legal (s : State) : Prop :=
  1 ≤ s.sessions.length ∧ s.sessions.all sessionBounded = true ∧ Memory.wf s.mem ∧ resultLegal s.result = true

/-! ## Sessions -/

/-- Session k has been created, holds S, and the operation's caller drives it (70_reset_and_hazards.md R243, R245):
the condition under which UNPACK has a meaning. -/
abbrev State.drives (s : State) (k : Nat) (S : Session) : Prop :=
  s.sessions[k]? = some (some S) ∧ S.driver = s.caller

/-- SESSION_INIT(k) has a meaning: session k has not been created, or the operation's caller drives it
(20_memory.md R55, 70_reset_and_hazards.md R245). -/
abbrev State.mayInit (s : State) (k : Nat) : Prop :=
  s.sessions[k]? = some none ∨ ∃ S, s.drives k S

/-- S with esc = 0 and idx = 0: Idle (10_state.md R25, R27). -/
def Session.idled (S : Session) : Session := { S with esc := false, buf := [] }

/-- s with session k replaced by S and the result r returned, nothing else changed. -/
def State.after (s : State) (k : Nat) (S : Session) (r : Result) : State :=
  { s with sessions := s.sessions.set k (some S), result := some r }

/-- UNPACK(k, c) and the wire_byte rows of session k whose key the byte c can match (spec/opcode_table.json). -/
def wireRowsFor (k : Nat) (c : Byte) : List Instr :=
  (if c = escEndByte then [.unpackEscEnd k] else [])
    ++ (if c = escEscByte then [.unpackEscEsc k] else [])
    ++ [.unpackEscBad k c]
    ++ (if c = escByte then [.unpackEsc k] else [])
    ++ (if c = endByte then [.unpackEndEmpty k, .unpackEndFrame k, .unpackEndMalformed k] else [])
    ++ [.unpackData k c]

/-! ## UNPACK as 42_unpack.md R140 writes it -/

/-- APPEND(S, b) of R140. -/
def pseudoAppend (S : Session) (b : Byte) : Session × Result :=
  if S.buf.length = 17 then ({ S with esc := false, buf := [] }, .error .overflow)
  else ({ S with buf := S.buf ++ [b] }, .incomplete)

/-- UNPACK(k, c) of R140, line for line, on session k's registers. -/
def pseudoUnpack (S : Session) (c : Byte) : Session × Result :=
  if S.esc = true then
    if c = 0xDC#8 then pseudoAppend { S with esc := false } 0xC0#8
    else if c = 0xDD#8 then pseudoAppend { S with esc := false } 0xDB#8
    else ({ S with esc := false, buf := [] }, .error .framingError)
  else if c = 0xDB#8 then ({ S with esc := true }, .incomplete)
  else if c = 0xC0#8 then
    match S.buf with
    | [] => (S, .incomplete)
    | t :: p =>
      match PacketType.ofTag t with
      | some ty =>
        if p.length = ty.psize then ({ S with esc := false, buf := [] }, .packetReady ⟨ty, des ty p⟩)
        else ({ S with esc := false, buf := [] }, .error .malformedPacket)
      | none => ({ S with esc := false, buf := [] }, .error .malformedPacket)
  else pseudoAppend S c

/-! ## Streams -/

/-- One UNPACK per byte, in order, on session k: the end state and the results, or none if one of them stops.
This is HOST's batch decoder (70_reset_and_hazards.md R253) and the list form of UNPACK (30_encoding.md R81). -/
def feed (k : Nat) : List Byte → State → Option (State × List Result)
  | [], s => some (s, [])
  | c :: cs, s =>
    match exec (.unpack k c) s with
    | .next t =>
      match t.result, feed k cs t with
      | some r, some (u, rs) => some (u, r :: rs)
      | _, _ => none
    | _ => none

/-- n steps, or none if one of them stops. -/
def State.run : Nat → State → Option State
  | 0, s => some s
  | n + 1, s =>
    match step s with
    | .next t => t.run n
    | _ => none

/-- HOST's request performed by step number a of a run from s is on session k: the a-th request issued decodes to an
instruction on k. -/
def State.issuesOn (s : State) (a k : Nat) (r : Request) : Prop :=
  s.queue[a]? = some r ∧ ∃ i, decode r.format r.bytes = .ok i ∧ i.session = some k

/-- OUT[0..n), as the byte sink reads it (20_memory.md R44, 70_reset_and_hazards.md R250). -/
def State.output (s : State) (out n : Nat) : List (Option Byte) :=
  (List.range n).map (fun i => s.readByte (out + i))

end Sys2Proof.Machine
end

