-- ==== Sys2Proof/Certificates/Slice0/Obligations.lean ====
section
/-! DEFINITION. The statements for the provers, one definition each; OBLIGATIONS.json lists them. Each docstring says
which rule or section of spec/ the statement formalises. `s.drives k S` is the condition under which UNPACK has a meaning
(session k created, holding S, driven by the operation's caller: who drives a session is the model's reading, log 11);
`s.after k S r` is s with session k replaced by S and the result r returned, nothing else changed. Where a statement names a
row of the formats wire_byte, stuff or type_tag as an instruction, that it is one is the model's choice (log 8). -/

open Sys2Proof Sys2Proof.Machine

/-! ## Reset, parameters, steps -/

/-- After reset no session exists, nothing is known of any OUT, and the block does nothing on its own
(70_reset_and_hazards.md R240, R242). That reset creates no session, and that nothing was returned or issued, are the
model's choices (log 5, 6, 14). -/
def Obligations.ResetHasNoSessionAndStaysIdle : Prop :=
  ∀ (n : Nat) (p : PackErrPriority),
    (State.init n p).sessions.length = n ∧ (State.init n p).priority = p ∧
    (∀ (k : Nat) (S : Session), (State.init n p).sessions[k]? ≠ some (some S)) ∧
    (∀ a, (State.init n p).readByte a = none) ∧
    (State.init n p).result = none ∧
    step (State.init n p) = .next (State.init n p) ∧
    step State.reset = .next State.reset

/-- The state after reset is legal, for any number of sessions from 1 on and either PACK_ERR_PRIORITY
(00_scope.md R12, 10_state.md R23). -/
def Obligations.ResetIsLegal : Prop :=
  (∀ (n : Nat) (p : PackErrPriority), 1 ≤ n → (State.init n p).legal) ∧ State.reset.legal

/-- Every step keeps a state legal: a session slot, every buffer at most 17 bytes, canonical memory, a result that
some operation returns (10_state.md R23, R29, 40_packet_model.md R101, 41_pack.md R126). -/
def Obligations.StepKeepsStateLegal : Prop :=
  ∀ s t : State, s.legal → step s = .next t → t.legal

/-- A step performs the request at the head of the queue: it is gone, its caller is the operation's caller, and the
rest is exec of the instruction its bytes decode to (00_scope.md R6, 70_reset_and_hazards.md R242; the queue is the
model's own, log 6). -/
def Obligations.StepPerformsDecodedRequest : Prop :=
  ∀ (s : State) (r : Request) (rest : List Request) (i : Instr),
    s.queue = r :: rest → decode r.format r.bytes = .ok i →
    step s = exec i { s with queue := rest, caller := r.caller }

/-- With nothing issued the block does nothing; a request whose bytes are no instruction is refused by name. Both are
the model's choice (log 6, 7; 70_reset_and_hazards.md R242: it executes nothing on its own). -/
def Obligations.StepIdlesOrRefusesUndecodable : Prop :=
  (∀ s : State, s.queue = [] → step s = .next s) ∧
  (∀ (s : State) (r : Request) (rest : List Request) (e : DecodeError),
    s.queue = r :: rest → decode r.format r.bytes = .error e → step s = .refused (.undecodable e))

/-- The open parameters never change, and a session once created stays created and in its place (00_scope.md R12,
10_state.md R22). -/
def Obligations.StepKeepsParametersAndSessions : Prop :=
  ∀ s t : State, step s = .next t →
    t.priority = s.priority ∧ t.sessions.length = s.sessions.length ∧
    ∀ (k : Nat) (S : Session), s.sessions[k]? = some (some S) → ∃ S' : Session, t.sessions[k]? = some (some S')

/-! ## Encoding -/

/-- Decoding what the encoder wrote gives the instruction back, for every well-formed instruction, every operand value
and whatever bytes follow (30_encoding.md section 6, spec/opcode_table.json). The operand layout is the model's choice
(log 7, 9), and so is that the classification rows are instructions of a format of their own (log 8). -/
def Obligations.DecodeInvertsEncode : Prop :=
  ∀ (i : Instr) (rest : List Byte), i.wellFormed = true → decode i.format (encode i ++ rest) = .ok i

/-- What the decoder accepts is of the format it was read in, and is well-formed, but for a PACK, whose payload may
not match its tag (40_packet_model.md section 4). Which bytes a wire_byte, stuff or type_tag row admits is the table's
(spec/opcode_table.json); that a request names its format and that these rows are instructions is the model's choice
(log 8), and so are the bytes that the decoder reads (log 7). -/
def Obligations.DecodedRowsAreWellFormed : Prop :=
  ∀ (f : Format) (bs : List Byte) (i : Instr), decode f bs = .ok i →
    i.format = f ∧ (i.wellFormed = true ∨ ∃ t data cap out, i = .pack t data cap out)

/-- Twelve bare words of spec/opcode_table.json, and the row each decodes to in this model: the four command codes,
wire_byte keys, stuff bytes, a tag. The rows' codes are the table's. That a word shared between formats (0b01 is also
TAG.Acc, 0xC0 and 0x08 also other rows) decodes to the row named here is the model's choice (log 10), and so is the
reading of the operand bytes, all zero, as Quat4 and 0 (log 7). -/
def Obligations.TableWordsDecodeToTheirRows : Prop :=
  decodeTableWord 8 0b00 = some (.layout 0x00#8) ∧
  decodeTableWord 8 0b01 = some (.pack 0x00#8 (.quat4 0#32 0#32 0#32 0#32) 0 0) ∧
  decodeTableWord 8 0b10 = some (.unpack 0 0x00#8) ∧
  decodeTableWord 8 0b11 = some (.sessionInit 0) ∧
  decodeTableWord 16 0x1DC = some (.unpackEscEnd 0) ∧
  decodeTableWord 16 0x1DD = some (.unpackEscEsc 0) ∧
  decodeTableWord 16 0x100 = some (.unpackEscBad 0 0x00#8) ∧
  decodeTableWord 16 0x0DB = some (.unpackEsc 0) ∧
  decodeTableWord 16 0x000 = some (.unpackData 0 0x00#8) ∧
  decodeTableWord 8 0xC0 = some .stuffEnd ∧
  decodeTableWord 8 0xDB = some .stuffEsc ∧
  decodeTableWord 8 0x08 = some .tagId

/-- An instruction whose operands its row does not admit never completes (40_packet_model.md R112; for the
classification rows the model's choice, log 8). -/
def Obligations.IllFormedNeverCompletes : Prop :=
  ∀ (i : Instr) (s : State), i.wellFormed = false → ∃ r, exec i s = .refused r

/-! ## LAYOUT -/

/-- LAYOUT answers its table for each valid tag and InvalidType for every other tag, and writes nothing
(40_packet_model.md section 2). That a request for it is the byte 0b00 and the tag, the last clause, is the model's
choice (log 7). -/
def Obligations.LayoutAnswersTableOrInvalidType : Prop :=
  ∀ s : State,
    exec (.layout 0x00#8) s = .next { s with result := some (.layout [(0, 4), (4, 4), (8, 4), (12, 4)]) } ∧
    exec (.layout 0x01#8) s = .next { s with result := some (.layout [(0, 2), (2, 2), (4, 2)]) } ∧
    exec (.layout 0x02#8) s = .next { s with result := some (.layout [(0, 2), (2, 2), (4, 2)]) } ∧
    exec (.layout 0x03#8) s = .next { s with result := some (.layout [(0, 2), (2, 2), (4, 2)]) } ∧
    exec (.layout 0x04#8) s = .next { s with result := some (.layout [(0, 1), (1, 1), (2, 1)]) } ∧
    exec (.layout 0x05#8) s = .next { s with result := some (.layout []) } ∧
    exec (.layout 0x06#8) s = .next { s with result := some (.layout []) } ∧
    exec (.layout 0x07#8) s = .next { s with result := some (.layout [(0, 4)]) } ∧
    exec (.layout 0x08#8) s = .next { s with result := some (.layout [(0, 4)]) } ∧
    (∀ t : Byte, 8 < t.toNat → exec (.layout t) s = .next { s with result := some (.error .invalidType) }) ∧
    ∀ (t : Byte) (rest : List Byte), decode .command (0b00#8 :: t :: rest) = .ok (.layout t)

/-- The widths LAYOUT gives add up to PSIZE(t), and its fields follow one another from offset 0 with no padding
(40_packet_model.md R102, 30_encoding.md R64). -/
def Obligations.LayoutFieldsTileThePayload : Prop :=
  ∀ (t : Byte) (s u : State) (fields : List (Nat × Nat)),
    exec (.layout t) s = .next u → u.result = some (.layout fields) →
    ∃ ty, PacketType.ofTag t = some ty ∧ (fields.map Prod.snd).sum = ty.psize ∧
      ∀ i o w, fields[i]? = some (o, w) → o = ((fields.take i).map Prod.snd).sum

/-! ## PACK -/

/-- The unframed packet of each payload variant, byte by byte: big-endian fields in order, no padding
(20_memory.md R41, 30_encoding.md R65 to R68, 40_packet_model.md R106). -/
def Obligations.UnframedBytesAreBigEndianFields : Prop :=
  (∀ (t : Byte) (w x y z : Bits32), unframed t (.quat4 w x y z) =
    [t, w.extractLsb' 24 8, w.extractLsb' 16 8, w.extractLsb' 8 8, w.extractLsb' 0 8,
      x.extractLsb' 24 8, x.extractLsb' 16 8, x.extractLsb' 8 8, x.extractLsb' 0 8,
      y.extractLsb' 24 8, y.extractLsb' 16 8, y.extractLsb' 8 8, y.extractLsb' 0 8,
      z.extractLsb' 24 8, z.extractLsb' 16 8, z.extractLsb' 8 8, z.extractLsb' 0 8]) ∧
  (∀ (t : Byte) (x y z : Bits16), unframed t (.vec3 x y z) =
    [t, x.extractLsb' 8 8, x.extractLsb' 0 8, y.extractLsb' 8 8, y.extractLsb' 0 8,
      z.extractLsb' 8 8, z.extractLsb' 0 8]) ∧
  (∀ t r g b : Byte, unframed t (.rgb r g b) = [t, r, g, b]) ∧
  (∀ (t : Byte) (v : Bits32), unframed t (.word v) =
    [t, v.extractLsb' 24 8, v.extractLsb' 16 8, v.extractLsb' 8 8, v.extractLsb' 0 8]) ∧
  (∀ t : Byte, unframed t .empty = [t])

/-- A PACK with a valid tag, the matching variant and cap >= 34 completes: it writes the frame to OUT[0..n), some
bytes to OUT[n..cap), returns Ok(n), and changes nothing else; OUT[i] is the address out + i (41_pack.md R120, R121,
R122, R123, R125). The frame is the stuffed unframed packet and one END. -/
def Obligations.PackWritesFrame : Prop :=
  ∀ (t : Byte) (ty : PacketType) (data : Payload) (cap out : Nat) (s : State),
    PacketType.ofTag t = some ty → data.kind = ty.kind → 34 ≤ cap →
    ∃ u w, exec (.pack t data cap out) s = .next u ∧
      w = (t :: ser data).flatMap (fun b =>
        if b = 0xC0#8 then [0xDB#8, 0xDC#8] else if b = 0xDB#8 then [0xDB#8, 0xDD#8] else [b]) ++ [0xC0#8] ∧
      w.length ≤ cap ∧
      u.result = some (.packed w.length) ∧
      (∀ i, i < w.length → u.readByte (out + i) = w[i]?) ∧
      (∀ i, w.length ≤ i → i < cap → ∃ b, u.readByte (out + i) = some b) ∧
      (∀ a, a < out ∨ out + cap ≤ a → u.readByte a = s.readByte a) ∧
      u.sessions = s.sessions ∧ u.priority = s.priority ∧ u.queue = s.queue ∧ u.caller = s.caller

/-- PACK's two error conditions and which error each gives, for an input that has a meaning; an erring PACK changes no
state at all (41_pack.md R124, 60_exceptions.md R202, R206, R211). -/
def Obligations.PackErrorsFollowPriority : Prop :=
  ∀ (t : Byte) (data : Payload) (cap out : Nat) (s : State),
    ((∃ ty, PacketType.ofTag t = some ty ∧ data.kind = ty.kind) → cap < 34 →
      exec (.pack t data cap out) s = .next { s with result := some (.error .bufferTooSmall) }) ∧
    (8 < t.toNat → 34 ≤ cap →
      exec (.pack t data cap out) s = .next { s with result := some (.error .invalidType) }) ∧
    (8 < t.toNat → cap < 34 → s.priority = .capacityFirst →
      exec (.pack t data cap out) s = .next { s with result := some (.error .bufferTooSmall) }) ∧
    (8 < t.toNat → cap < 34 → s.priority = .typeFirst →
      exec (.pack t data cap out) s = .next { s with result := some (.error .invalidType) })

/-- PACK is refused exactly when the tag is valid and the variant is not KIND(t); with an invalid tag the data is
ignored: any two give the same (40_packet_model.md R112). -/
def Obligations.PackRefusesMismatchedPayload : Prop :=
  ∀ (t : Byte) (data : Payload) (cap out : Nat) (s : State),
    (exec (.pack t data cap out) s = .refused .payloadMismatch ↔
      ∃ ty, PacketType.ofTag t = some ty ∧ data.kind ≠ ty.kind) ∧
    (∀ r, exec (.pack t data cap out) s = .refused r → r = .payloadMismatch) ∧
    (8 < t.toNat → ∀ data' : Payload, exec (.pack t data' cap out) s = exec (.pack t data cap out) s)

/-- A successful PACK has n = 1 + PSIZE(t) + e + 1, where e counts the payload bytes that need an escape, and
2 <= n <= 34 (41_pack.md R126). -/
def Obligations.PackLengthIsBounded : Prop :=
  ∀ (t : Byte) (data : Payload) (cap out n : Nat) (s u : State),
    exec (.pack t data cap out) s = .next u → u.result = some (.packed n) →
    2 ≤ n ∧ n ≤ 34 ∧ ∃ ty, PacketType.ofTag t = some ty ∧ n = 1 + ty.psize + escapedCount (ser data) + 1

/-- The frame PACK writes ends in END, holds no other END, has every ESC followed by 0xDC or 0xDD, and begins with the
tag itself (41_pack.md R127, first three properties). -/
def Obligations.PackedFrameIsWellDelimited : Prop :=
  ∀ (t : Byte) (data : Payload) (cap out n : Nat) (s u : State),
    exec (.pack t data cap out) s = .next u → u.result = some (.packed n) →
    u.readByte (out + (n - 1)) = some 0xC0#8 ∧
    (∀ i, i + 1 < n → u.readByte (out + i) ≠ some 0xC0#8) ∧
    (∀ i, i < n → u.readByte (out + i) = some 0xDB#8 →
      i + 1 < n ∧ (u.readByte (out + (i + 1)) = some 0xDC#8 ∨ u.readByte (out + (i + 1)) = some 0xDD#8)) ∧
    u.readByte out = some t

/-- DES inverts SER on every payload of the type's kind, and SER inverts DES on every byte list of PSIZE(t) bytes
(40_packet_model.md R108). -/
def Obligations.DesAndSerAreInverse : Prop :=
  (∀ (ty : PacketType) (data : Payload), data.kind = ty.kind → des ty (ser data) = data) ∧
  (∀ (ty : PacketType) (p : List Byte), p.length = ty.psize → ser (des ty p) = p)

/-- PACK is a function of (t, data, cap) and PACK_ERR_PRIORITY, but for the don't-care bytes: where it completes, it
completes from every state of the same priority and into every OUT, with the same result and the same OUT[0..n), and it
writes no session (41_pack.md R128). -/
def Obligations.PackDependsOnOperandsAndPriority : Prop :=
  ∀ (t : Byte) (data : Payload) (cap out out' : Nat) (s s' u : State),
    s.priority = s'.priority → exec (.pack t data cap out) s = .next u →
    ∃ u', exec (.pack t data cap out') s' = .next u' ∧ u'.result = u.result ∧
      (∀ n, u.result = some (.packed n) → ∀ i, i < n → u'.readByte (out' + i) = u.readByte (out + i)) ∧
      u.sessions = s.sessions ∧ u'.sessions = s'.sessions

/-- Of two successful PACKs, the later one's frame stands whole, and the earlier one's frame bytes outside the later
one's OUT stand as written (20_memory.md R53, for the order in which they are performed). -/
def Obligations.LaterPackWinsOverlap : Prop :=
  ∀ (t1 t2 : Byte) (d1 d2 : Payload) (cap1 cap2 out1 out2 n1 n2 : Nat) (s u v : State),
    exec (.pack t1 d1 cap1 out1) s = .next u → u.result = some (.packed n1) →
    exec (.pack t2 d2 cap2 out2) u = .next v → v.result = some (.packed n2) →
    (∀ i, i < n2 → v.readByte (out2 + i) = (frame (unframed t2 d2))[i]?) ∧
    (∀ i, i < n1 → out1 + i < out2 ∨ out2 + cap2 ≤ out1 + i →
      v.readByte (out1 + i) = (frame (unframed t1 d1))[i]?)

/-! ## UNPACK -/

/-- Each session is in exactly one of the three named decoder states, as its registers say (10_state.md R25). -/
def Obligations.DecoderStateFollowsRegisters : Prop :=
  ∀ S : Session,
    (S.decoderState = .idle ↔ S.esc = false ∧ S.buf.length = 0) ∧
    (S.decoderState = .accumulating ↔ S.esc = false ∧ 1 ≤ S.buf.length) ∧
    (S.decoderState = .escapePending ↔ S.esc = true)

/-- In EscapePending, 0xDC gives the literal 0xC0 and 0xDD the literal 0xDB: esc is cleared and the literal appended,
or Overflow is raised when the buffer is full (42_unpack.md section 1). That the rows UNPACK.ESC_END and UNPACK.ESC_ESC
are instructions, which do the same, is the model's choice (log 8). -/
def Obligations.UnpackTranslatesEscapes : Prop :=
  ∀ (s : State) (k : Nat) (S : Session), s.drives k S → S.esc = true →
    (S.buf.length ≠ 17 →
      exec (.unpack k 0xDC#8) s = .next (s.after k { S with esc := false, buf := S.buf ++ [0xC0#8] } .incomplete) ∧
      exec (.unpackEscEnd k) s = .next (s.after k { S with esc := false, buf := S.buf ++ [0xC0#8] } .incomplete) ∧
      exec (.unpack k 0xDD#8) s = .next (s.after k { S with esc := false, buf := S.buf ++ [0xDB#8] } .incomplete) ∧
      exec (.unpackEscEsc k) s = .next (s.after k { S with esc := false, buf := S.buf ++ [0xDB#8] } .incomplete)) ∧
    (S.buf.length = 17 →
      exec (.unpack k 0xDC#8) s = .next (s.after k { S with esc := false, buf := [] } (.error .overflow)) ∧
      exec (.unpackEscEnd k) s = .next (s.after k { S with esc := false, buf := [] } (.error .overflow)) ∧
      exec (.unpack k 0xDD#8) s = .next (s.after k { S with esc := false, buf := [] } (.error .overflow)) ∧
      exec (.unpackEscEsc k) s = .next (s.after k { S with esc := false, buf := [] } (.error .overflow)))

/-- In EscapePending, any other byte raises FramingError and empties the session, END and ESC included
(42_unpack.md section 1). That the row UNPACK.ESC_BAD is an instruction, which does the same, is the model's choice
(log 8). -/
def Obligations.UnpackBadEscapeIsFramingError : Prop :=
  ∀ (s : State) (k : Nat) (S : Session) (c : Byte), s.drives k S → S.esc = true → c ≠ 0xDC#8 → c ≠ 0xDD#8 →
    exec (.unpack k c) s = .next (s.after k { S with esc := false, buf := [] } (.error .framingError)) ∧
    exec (.unpackEscBad k c) s = .next (s.after k { S with esc := false, buf := [] } (.error .framingError))

/-- With esc = 0, ESC sets esc and returns Incomplete, idx and buf unchanged, at any idx (42_unpack.md section 1). That
the row UNPACK.ESC is an instruction, which does the same, is the model's choice (log 8). -/
def Obligations.UnpackEscSetsEscapeFlag : Prop :=
  ∀ (s : State) (k : Nat) (S : Session), s.drives k S → S.esc = false →
    exec (.unpack k 0xDB#8) s = .next (s.after k { S with esc := true } .incomplete) ∧
    exec (.unpackEsc k) s = .next (s.after k { S with esc := true } .incomplete)

/-- With esc = 0 and an empty buffer, END changes nothing and the result is Incomplete (42_unpack.md section 1). That
the row UNPACK.END_EMPTY is an instruction, which does the same, is the model's choice (log 8). -/
def Obligations.UnpackEndOnEmptyBufferChangesNothing : Prop :=
  ∀ (s : State) (k : Nat) (S : Session), s.drives k S → S.esc = false → S.buf = [] →
    exec (.unpack k 0xC0#8) s = .next { s with result := some .incomplete } ∧
    exec (.unpackEndEmpty k) s = .next { s with result := some .incomplete }

/-- With esc = 0, END on a buffer of a valid type byte and PSIZE(t) payload bytes delivers the packet they encode and
empties the session (42_unpack.md section 1). That the row UNPACK.END_FRAME is an instruction, which does the same, is
the model's choice (log 8). -/
def Obligations.UnpackEndDeliversPacket : Prop :=
  ∀ (s : State) (k : Nat) (S : Session) (t : Byte) (p : List Byte) (ty : PacketType),
    s.drives k S → S.esc = false → S.buf = t :: p → PacketType.ofTag t = some ty → p.length = ty.psize →
    exec (.unpack k 0xC0#8) s =
      .next (s.after k { S with esc := false, buf := [] } (.packetReady ⟨ty, des ty p⟩)) ∧
    exec (.unpackEndFrame k) s =
      .next (s.after k { S with esc := false, buf := [] } (.packetReady ⟨ty, des ty p⟩))

/-- With esc = 0, END on a non-empty buffer whose tag is above 0x08 or whose length is not 1 + PSIZE(t) raises
MalformedPacket and empties the session (42_unpack.md section 1). That the row UNPACK.END_MALFORMED is an instruction,
which does the same, is the model's choice (log 8). -/
def Obligations.UnpackEndRejectsMalformed : Prop :=
  ∀ (s : State) (k : Nat) (S : Session) (t : Byte) (p : List Byte),
    s.drives k S → S.esc = false → S.buf = t :: p →
    (8 < t.toNat ∨ ∃ ty, PacketType.ofTag t = some ty ∧ p.length ≠ ty.psize) →
    exec (.unpack k 0xC0#8) s = .next (s.after k { S with esc := false, buf := [] } (.error .malformedPacket)) ∧
    exec (.unpackEndMalformed k) s =
      .next (s.after k { S with esc := false, buf := [] } (.error .malformedPacket))

/-- With esc = 0, a byte that is neither ESC nor END is appended literally, or raises Overflow when the buffer is full
(42_unpack.md section 1). That the row UNPACK.DATA is an instruction, which does the same, is the model's choice
(log 8). -/
def Obligations.UnpackAppendsOrdinaryByte : Prop :=
  ∀ (s : State) (k : Nat) (S : Session) (c : Byte), s.drives k S → S.esc = false → c ≠ 0xDB#8 → c ≠ 0xC0#8 →
    (S.buf.length ≠ 17 →
      exec (.unpack k c) s = .next (s.after k { S with buf := S.buf ++ [c] } .incomplete) ∧
      exec (.unpackData k c) s = .next (s.after k { S with buf := S.buf ++ [c] } .incomplete)) ∧
    (S.buf.length = 17 →
      exec (.unpack k c) s = .next (s.after k { S with esc := false, buf := [] } (.error .overflow)) ∧
      exec (.unpackData k c) s = .next (s.after k { S with esc := false, buf := [] } (.error .overflow)))

/-- On a session its caller drives, UNPACK always completes, with the session and the result of the spec's pseudocode
and nothing else changed (42_unpack.md section 1). That a request for it is the byte 0b10, the index in base 128 and
the received byte, the last clause, is the model's choice (log 7). -/
def Obligations.UnpackFollowsPseudocode : Prop :=
  ∀ (s : State) (k : Nat) (S : Session) (c : Byte), s.drives k S →
    exec (.unpack k c) s = .next (s.after k (pseudoUnpack S c).1 (pseudoUnpack S c).2) ∧
    ∀ rest : List Byte, decode .command (0b10#8 :: (encodeNat k ++ c :: rest)) = .ok (.unpack k c)

/-- Exactly one wire_byte row applies to each byte and session state: it does what UNPACK does, and every other row
that the byte's value could match is refused (42_unpack.md R149; that a row not selected is refused is the model's
choice, log 8). -/
def Obligations.ExactlyOneWireRowApplies : Prop :=
  ∀ (s : State) (k : Nat) (S : Session) (c : Byte), s.drives k S →
    ∃ i ∈ wireRowsFor k c, exec i s = exec (.unpack k c) s ∧
      ∀ j ∈ wireRowsFor k c, j ≠ i → exec j s = .refused .rowNotSelected

/-- PacketReady comes only from END with esc = 0 on the unframed encoding of the delivered packet, a packet whose
variant is its tag's kind, and leaves the session Idle (42_unpack.md R145, R152, 40_packet_model.md R101). -/
def Obligations.PacketReadyOnlyForUnframedPacket : Prop :=
  ∀ (s t : State) (k : Nat) (c : Byte) (p : Packet),
    exec (.unpack k c) s = .next t → t.result = some (.packetReady p) →
    c = 0xC0#8 ∧ p.data.kind = p.type.kind ∧
    ∃ S, s.drives k S ∧ S.esc = false ∧ S.buf = unframed p.type.tag p.data ∧
      t.sessions[k]? = some (some S.idled)

/-- An UNPACK error, seen from the step: the session is emptied, the error is returned, and nothing else of the block
changes (60_exceptions.md section 2). The input byte is consumed as its request leaves the queue, and its caller
becomes the operation's caller: the queue, the caller and the result port are the model's own fields (log 6, 11, 5). -/
def Obligations.UnpackErrorEmptiesOnlyItsSession : Prop :=
  ∀ (s t : State) (r : Request) (rest : List Request) (k : Nat) (c : Byte) (e : ErrorKind),
    s.queue = r :: rest → decode r.format r.bytes = .ok (.unpack k c) →
    step s = .next t → t.result = some (.error e) →
    ∃ S, s.sessions[k]? = some (some S) ∧
      t = { s with
        queue := rest
        caller := r.caller
        sessions := s.sessions.set k (some { S with esc := false, buf := [] })
        result := some (.error e) }

/-- An UNPACK on a session that was never initialised is refused, and so is every wire_byte row
(70_reset_and_hazards.md R243). -/
def Obligations.UninitialisedSessionIsRefused : Prop :=
  ∀ (i : Instr) (s : State) (k : Nat),
    i.session = some k → (∀ j, i ≠ .sessionInit j) → s.sessions[k]? = some none →
    exec i s = .refused .uninitialisedSession

/-- Every operation on a session, UNPACK, its rows and SESSION_INIT, is refused to a caller that does not drive it, and
never given the merged-stream meaning (70_reset_and_hazards.md section 3, 20_memory.md section 5). That the driver is
the caller that created the session is the model's reading (log 11). -/
def Obligations.SecondCallerIsRefused : Prop :=
  ∀ (i : Instr) (s : State) (k : Nat) (S : Session),
    i.session = some k → s.sessions[k]? = some (some S) → S.driver ≠ s.caller →
    exec i s = .refused .sharedSession

/-- A session index outside 0 .. N_SESSIONS-1 is refused (30_encoding.md R80 gives the range; the refusal is the
model's choice, log 15). -/
def Obligations.IndexOutOfRangeIsRefused : Prop :=
  ∀ (i : Instr) (s : State) (k : Nat),
    i.session = some k → s.sessions.length ≤ k → exec i s = .refused .noSuchSession

/-! ## SESSION_INIT -/

/-- SESSION_INIT(k), of a session not created or one its caller drives (log 11), makes session k Idle, whatever it was,
changes nothing else and returns unit; a second one has the effect of one (42_unpack.md section 2). That a request for
it is the byte 0b11 and the index in base 128, the last clause, is the model's choice (log 7). -/
def Obligations.SessionInitMakesFreshSession : Prop :=
  ∀ (s : State) (k : Nat), s.mayInit k →
    (∃ S : Session, S.esc = false ∧ S.buf = [] ∧ S.decoderState = .idle ∧
      exec (.sessionInit k) s = .next (s.after k S .unit) ∧
      exec (.sessionInit k) (s.after k S .unit) = .next (s.after k S .unit)) ∧
    ∀ rest : List Byte, decode .command (0b11#8 :: (encodeNat k ++ rest)) = .ok (.sessionInit k)

/-- After SESSION_INIT(k) its caller drives session k and may feed any byte at once. That the session is its caller's
is the model's reading (log 11; 42_unpack.md section 2, 70_reset_and_hazards.md section 3). -/
def Obligations.SessionInitHandsSessionToItsCaller : Prop :=
  ∀ (s t : State) (k : Nat) (c : Byte), exec (.sessionInit k) s = .next t →
    t.drives k (Session.fresh s.caller) ∧ t.caller = s.caller ∧ ∃ u, exec (.unpack k c) t = .next u

/-- A session keeps its driver: no step changes who drives a created session, and an operation on it completes only for
its driver (20_memory.md section 5, 70_reset_and_hazards.md section 3; who drives a session is the model's reading,
log 11). -/
def Obligations.SessionKeepsItsDriver : Prop :=
  ∀ (s t : State) (k : Nat) (S : Session), s.sessions[k]? = some (some S) →
    (step s = .next t → ∃ S', t.sessions[k]? = some (some S') ∧ S'.driver = S.driver) ∧
    (∀ i, i.session = some k → exec i s = .next t → S.driver = s.caller)

/-- No schedule in which two callers drive one session runs to its end: if n steps complete, any two of the first n
requests that are for one session were issued by the same caller (20_memory.md section 5, 70_reset_and_hazards.md
section 3). The queue of requests is the model's own (log 6), and so is the reading of who drives a session
(log 11). -/
def Obligations.NoRunDrivesASessionFromTwoCallers : Prop :=
  ∀ (n a b k : Nat) (s t : State) (r r' : Request),
    s.run n = some t → a < n → b < n → s.issuesOn a k r → s.issuesOn b k r' → r.caller = r'.caller

/-! ## Whole-machine rules over sessions and memory -/

/-- UNPACK, its rows and SESSION_INIT on session k write only S[k] (and the result), and what they do to S[k] and
return depends only on S[k] and on who calls (42_unpack.md R153). -/
def Obligations.SessionOperationsAreIsolated : Prop :=
  ∀ (i : Instr) (k : Nat) (s t : State), i.session = some k → exec i s = .next t →
    (∀ j, j ≠ k → t.sessions[j]? = s.sessions[j]?) ∧
    t.mem = s.mem ∧ t.draws = s.draws ∧ t.priority = s.priority ∧ t.queue = s.queue ∧ t.caller = s.caller ∧
    ∀ s' : State, s'.sessions[k]? = s.sessions[k]? → s'.caller = s.caller →
      ∃ t', exec i s' = .next t' ∧ t'.result = t.result ∧ t'.sessions[k]? = t.sessions[k]?

/-- Operations on distinct sessions commute: either order ends in the same sessions and memory, and each returns the
same result (20_memory.md R52). -/
def Obligations.DistinctSessionOperationsCommute : Prop :=
  ∀ (i j : Instr) (a b : Nat) (s u v : State),
    i.session = some a → j.session = some b → a ≠ b →
    exec i s = .next u → exec j u = .next v →
    ∃ u' v', exec j s = .next u' ∧ exec i u' = .next v' ∧
      u'.result = v.result ∧ v'.result = u.result ∧ v'.sessions = v.sessions ∧ v'.mem = v.mem

/-- A PACK commutes with every UNPACK and SESSION_INIT: either order ends in the same sessions and memory, and each
returns the same result (20_memory.md R52, 41_pack.md R128). -/
def Obligations.PackCommutesWithSessionOperations : Prop :=
  ∀ (tag : Byte) (data : Payload) (cap out : Nat) (j : Instr) (k : Nat) (s u v : State),
    j.session = some k →
    exec (.pack tag data cap out) s = .next u → exec j u = .next v →
    ∃ u' v', exec j s = .next u' ∧ exec (.pack tag data cap out) u' = .next v' ∧
      u'.result = v.result ∧ v'.result = u.result ∧ v'.sessions = v.sessions ∧ v'.mem = v.mem

/-- PACKs whose OUT buffers do not overlap commute: either order gives each its result and its frame bytes, the same
sessions, and the same bytes outside both buffers (20_memory.md R52). The don't-care bytes OUT[n..cap) are drawn in
the order of the PACKs and may differ (log 3). -/
def Obligations.DisjointPacksCommute : Prop :=
  ∀ (t1 t2 : Byte) (d1 d2 : Payload) (cap1 cap2 out1 out2 : Nat) (s u v : State),
    out1 + cap1 ≤ out2 ∨ out2 + cap2 ≤ out1 →
    exec (.pack t1 d1 cap1 out1) s = .next u → exec (.pack t2 d2 cap2 out2) u = .next v →
    ∃ u' v', exec (.pack t2 d2 cap2 out2) s = .next u' ∧ exec (.pack t1 d1 cap1 out1) u' = .next v' ∧
      u'.result = v.result ∧ v'.result = u.result ∧ v'.sessions = v.sessions ∧
      (∀ n, u.result = some (.packed n) → ∀ i, i < n → v'.readByte (out1 + i) = v.readByte (out1 + i)) ∧
      (∀ n, v.result = some (.packed n) → ∀ i, i < n → v'.readByte (out2 + i) = v.readByte (out2 + i)) ∧
      (∀ a, a < out1 ∨ out1 + cap1 ≤ a → a < out2 ∨ out2 + cap2 ≤ a → v'.readByte a = v.readByte a)

/-- Only a PACK that succeeds changes a byte of memory; every other operation that completes, a failing PACK
included, leaves every address reading as before (10_state.md R28, 20_memory.md R40, R47). LAYOUT, PACK and the stuff
and type_tag rows leave every session as it was (41_pack.md R128, 60_exceptions.md R206). -/
def Obligations.OnlySuccessfulPackWritesMemory : Prop :=
  ∀ (i : Instr) (s t : State), exec i s = .next t →
    ((∃ tag data cap out n, i = .pack tag data cap out ∧ t.result = some (.packed n)) ∨
      ∀ a, t.readByte a = s.readByte a) ∧
    (i.session = none → t.sessions = s.sessions)

/-- esc of session k is 1 after an operation exactly when that operation was UNPACK of ESC on it while esc was 0, or
esc was 1 before and the operation was on no session or another; a session just created has esc = 0
(10_state.md section 2). That the row UNPACK.ESC is an instruction, which sets esc as that UNPACK does, and that the
other rows are instructions, is the model's choice (log 8). -/
def Obligations.EscapeFlagSetOnlyByEsc : Prop :=
  ∀ (i : Instr) (s t : State) (k : Nat) (S' : Session),
    exec i s = .next t → t.sessions[k]? = some (some S') →
    (∀ S, s.sessions[k]? = some (some S) →
      (S'.esc = true ↔
        (S.esc = false ∧ (i = .unpack k 0xDB#8 ∨ i = .unpackEsc k)) ∨ (S.esc = true ∧ i.session ≠ some k))) ∧
    (s.sessions[k]? = some none → S'.esc = false)

/-- A session is emptied by SESSION_INIT, by PacketReady and by every UNPACK error on it, and at no other time: any
other operation leaves its buffer as it was or one byte longer, and then it was not full
(70_reset_and_hazards.md R241, 42_unpack.md R148). -/
def Obligations.SessionEmptiedExactlyAtResetPoints : Prop :=
  ∀ (i : Instr) (s t : State) (k : Nat) (S S' : Session),
    exec i s = .next t → s.sessions[k]? = some (some S) → t.sessions[k]? = some (some S') →
    (i.session = some k →
      (i = .sessionInit k ∨ (∃ p, t.result = some (.packetReady p)) ∨ ∃ e, t.result = some (.error e)) →
      S'.esc = false ∧ S'.buf = []) ∧
    (¬ (i.session = some k ∧
        (i = .sessionInit k ∨ (∃ p, t.result = some (.packetReady p)) ∨ ∃ e, t.result = some (.error e))) →
      S'.buf = S.buf ∨ (S.buf.length ≠ 17 ∧ ∃ b, S'.buf = S.buf ++ [b]))

/-- Each operation returns only the results listed for it (10_state.md R29, 60_exceptions.md R200, R201): LAYOUT a
layout or InvalidType; PACK Ok(n), InvalidType or BufferTooSmall; UNPACK Incomplete, PacketReady, FramingError,
MalformedPacket or Overflow; SESSION_INIT unit. -/
def Obligations.ResultsMatchTheirOperation : Prop :=
  ∀ (s t : State),
    (∀ tag, exec (.layout tag) s = .next t →
      (∃ fields, t.result = some (.layout fields)) ∨ t.result = some (.error .invalidType)) ∧
    (∀ tag data cap out, exec (.pack tag data cap out) s = .next t →
      (∃ n, t.result = some (.packed n)) ∨ t.result = some (.error .invalidType) ∨
        t.result = some (.error .bufferTooSmall)) ∧
    (∀ k c, exec (.unpack k c) s = .next t →
      t.result = some .incomplete ∨ (∃ p, t.result = some (.packetReady p)) ∨
        t.result = some (.error .framingError) ∨ t.result = some (.error .malformedPacket) ∨
        t.result = some (.error .overflow)) ∧
    (∀ k, exec (.sessionInit k) s = .next t → t.result = some .unit)

/-- An error in LAYOUT or PACK changes no state: the only effect is the result (60_exceptions.md R206). -/
def Obligations.LayoutAndPackErrorsChangeNothing : Prop :=
  ∀ (i : Instr) (s t : State) (e : ErrorKind),
    ((∃ tag, i = .layout tag) ∨ ∃ tag data cap out, i = .pack tag data cap out) →
    exec i s = .next t → t.result = some (.error e) → t = { s with result := some (.error e) }

/-- The codes of the five error kinds, and that no step ends in a fault: an error is delivered only as a result
(60_exceptions.md R200, R208). -/
def Obligations.ErrorsAreCodedResults : Prop :=
  ErrorKind.code .invalidType = 1 ∧ ErrorKind.code .bufferTooSmall = 2 ∧ ErrorKind.code .framingError = 3 ∧
  ErrorKind.code .malformedPacket = 4 ∧ ErrorKind.code .overflow = 5 ∧
  ∀ (s : State) (f : Fault), step s ≠ .fault f

/-! ## The stuff and type_tag rows -/

/-- STUFF gives 0xC0 as 0xDB 0xDC, 0xDB as 0xDB 0xDD and every other byte as itself; the rows return that and change
nothing else (30_encoding.md R71). -/
def Obligations.StuffRowsGiveWireBytes : Prop :=
  ∀ s : State,
    exec .stuffEnd s = .next { s with result := some (.stuffed [0xDB#8, 0xDC#8]) } ∧
    exec .stuffEsc s = .next { s with result := some (.stuffed [0xDB#8, 0xDD#8]) } ∧
    ∀ b : Byte, b ≠ 0xC0#8 → b ≠ 0xDB#8 →
      exec (.stuffLiteral b) s = .next { s with result := some (.stuffed [b]) }

/-- Each valid tag's payload kind and PSIZE, returned by its row with nothing else changed (30_encoding.md R61, R63). -/
def Obligations.TagRowsGiveKindAndSize : Prop :=
  ∀ s : State,
    exec .tagQuat s = .next { s with result := some (.tagged .quat4 16) } ∧
    exec .tagAcc s = .next { s with result := some (.tagged .vec3 6) } ∧
    exec .tagGyro s = .next { s with result := some (.tagged .vec3 6) } ∧
    exec .tagMag s = .next { s with result := some (.tagged .vec3 6) } ∧
    exec .tagColor s = .next { s with result := some (.tagged .rgb 3) } ∧
    exec .tagBlink s = .next { s with result := some (.tagged .empty 0) } ∧
    exec .tagIR s = .next { s with result := some (.tagged .empty 0) } ∧
    exec .tagVersion s = .next { s with result := some (.tagged .word 4) } ∧
    exec .tagId s = .next { s with result := some (.tagged .word 4) } ∧
    PacketType.ofTag 0x00#8 = some .quat ∧ PacketType.ofTag 0x01#8 = some .acc ∧
    PacketType.ofTag 0x02#8 = some .gyro ∧ PacketType.ofTag 0x03#8 = some .mag ∧
    PacketType.ofTag 0x04#8 = some .color ∧ PacketType.ofTag 0x05#8 = some .blink ∧
    PacketType.ofTag 0x06#8 = some .infraRed ∧ PacketType.ofTag 0x07#8 = some .version ∧
    PacketType.ofTag 0x08#8 = some .id

/-- The tags 0x09 to 0xFF are invalid: their row answers that they select nothing (the model's own result, log 8),
LAYOUT and, with room, PACK raise InvalidType, and UNPACK raises MalformedPacket at the frame end
(30_encoding.md R62). -/
def Obligations.InvalidTagsAreRejected : Prop :=
  ∀ (s : State) (t : Byte), 8 < t.toNat →
    exec (.tagInvalid t) s = .next { s with result := some .untagged } ∧
    exec (.layout t) s = .next { s with result := some (.error .invalidType) } ∧
    (∀ data cap out, 34 ≤ cap →
      exec (.pack t data cap out) s = .next { s with result := some (.error .invalidType) }) ∧
    ∀ k S p, s.drives k S → S.esc = false → S.buf = t :: p →
      exec (.unpack k 0xC0#8) s =
        .next (s.after k { S with esc := false, buf := [] } (.error .malformedPacket))

/-! ## Streams -/

/-- Round trip: a successful PACK's bytes, fed one at a time to an Idle session, give Incomplete for all but the last
and then the packet, bit for bit; the session ends Idle as it was, and no other session and no memory changes
(42_unpack.md R151, 41_pack.md R127). -/
def Obligations.PackedBytesUnpackToThePacket : Prop :=
  ∀ (t : Byte) (data : Payload) (cap out n : Nat) (s u : State) (w : List Byte) (k : Nat) (S : Session),
    exec (.pack t data cap out) s = .next u → u.result = some (.packed n) →
    w.length = n → u.output out n = w.map some →
    u.drives k S → S.esc = false → S.buf = [] →
    ∃ v ty, PacketType.ofTag t = some ty ∧
      feed k w u = some (v, List.replicate (n - 1) .incomplete ++ [.packetReady ⟨ty, data⟩]) ∧
      v.sessions = u.sessions ∧ v.mem = u.mem

/-- Self-healing: after any UNPACK error, the next well-formed frame is decoded as if nothing had happened
(42_unpack.md R154, 60_exceptions.md R209). -/
def Obligations.SessionHealsAfterError : Prop :=
  ∀ (s t : State) (k : Nat) (c : Byte) (e : ErrorKind) (p : Packet),
    exec (.unpack k c) s = .next t → t.result = some (.error e) → p.data.kind = p.type.kind →
    ∃ v rs, feed k (frame (unframed p.type.tag p.data)) t = some (v, rs ++ [.packetReady p]) ∧
      (∀ r ∈ rs, r = .incomplete) ∧ v.sessions = t.sessions

/-- Any number of ENDs may stand between frames: on an Idle session each returns Incomplete and nothing changes
(30_encoding.md R74, 42_unpack.md R144). -/
def Obligations.RepeatedEndsAreHarmless : Prop :=
  ∀ (s : State) (k : Nat) (S : Session) (m : Nat), s.drives k S → S.esc = false → S.buf = [] →
    ∃ v, feed k (List.replicate m 0xC0#8) s = some (v, List.replicate m .incomplete) ∧
      v.sessions = s.sessions ∧ v.mem = s.mem

/-- The block does not skip to the next END after an error: when a byte overflows the buffer, it is dropped, and the
two bytes that follow, 0x05 and 0xC0, are decoded as a Blink frame (70_reset_and_hazards.md R246). -/
def Obligations.OverflowDoesNotResynchronise : Prop :=
  ∀ (s : State) (k : Nat) (S : Session) (c : Byte),
    s.drives k S → S.esc = false → S.buf.length = 17 → c ≠ 0xDB#8 → c ≠ 0xC0#8 →
    ∃ v, feed k [c, 0x05#8, 0xC0#8] s =
      some (v, [.error .overflow, .incomplete, .packetReady ⟨.blink, .empty⟩])

/-- A Vec3 field's integer is the two's-complement value of its 16 bits: in -32768 .. 32767, bit 15 its sign
(40_packet_model.md R109). -/
def Obligations.SintIsTwosComplement : Prop :=
  ∀ x : Bits16, -32768 ≤ sint x ∧ sint x ≤ 32767 ∧
    sint x = (x.toNat : Int) - (if x.getLsbD 15 then 65536 else 0)
end

