-- ==== Sys2Proof/Laws/Operands.lean ====
section
/-! SUPPORT. Tags, field serialization, stuffing: one lemma that says what each function can do. -/

namespace Sys2Proof

theorem PacketType.ofTag_tag (ty : PacketType) : PacketType.ofTag ty.tag = some ty := by
  cases ty <;> rfl

/-- A valid tag is its type's tag, and is at most 0x08 (30_encoding.md R61). -/
theorem PacketType.tag_of_ofTag {t : Byte} {ty : PacketType} (h : PacketType.ofTag t = some ty) :
    ty.tag = t ∧ t.toNat ≤ 8 := by
  have key : ∀ t : Byte, ∀ ty ∈ PacketType.ofTag t, ty.tag = t ∧ t.toNat ≤ 8 := by decide
  exact key t ty h

/-- The invalid tags are those above 0x08 (30_encoding.md R62). -/
theorem PacketType.ofTag_eq_none_iff (t : Byte) : PacketType.ofTag t = none ↔ 8 < t.toNat := by
  have key : ∀ t : Byte, PacketType.ofTag t = none ↔ 8 < t.toNat := by decide
  exact key t

theorem length_serBE {n : Nat} (v : BitVec n) (w : Nat) : (serBE v w).length = w := by
  induction w with
  | zero => rfl
  | succ w ih => simp [serBE, ih]

/-- `len(SER(t, data)) = PSIZE(t)` (40_packet_model.md R106), by the variant's size. -/
theorem length_ser {ty : PacketType} {data : Payload} (h : data.kind = ty.kind) :
    (ser data).length = ty.psize := by
  cases data <;> cases ty <;> simp_all [ser, length_serBE, Payload.kind, PacketType.kind, PacketType.psize]

theorem beNat_append (acc : Nat) (bs : List Byte) (b : Byte) :
    beNat acc (bs ++ [b]) = beNat acc bs * 256 + b.toNat := by
  induction bs generalizing acc with
  | nil => rfl
  | cons c bs ih => simp [beNat, ih]

theorem beNat_eq (acc : Nat) (bs : List Byte) : beNat acc bs = acc * 256 ^ bs.length + beNat 0 bs := by
  induction bs generalizing acc with
  | nil => simp [beNat]
  | cons c bs ih =>
    simp only [beNat, List.length_cons]
    rw [ih, ih (0 * 256 + c.toNat)]
    ring

theorem beNat_serBE {n : Nat} (v : BitVec n) (w : Nat) : beNat 0 (serBE v w) = v.toNat % 256 ^ w := by
  induction w with
  | zero => simp [serBE, beNat, Nat.mod_one]
  | succ w ih =>
    simp only [serBE, beNat]
    rw [beNat_eq, ih, length_serBE]
    simp only [BitVec.extractLsb'_toNat, Nat.zero_mul, Nat.zero_add, Nat.shiftRight_eq_div_pow]
    have h1 : (2 : Nat) ^ (8 * w) = 256 ^ w := by rw [Nat.pow_mul]
    rw [h1, show (2 : Nat) ^ 8 = 256 from rfl, Nat.pow_succ, Nat.mod_mul]
    ring

/-- DES_BE reads what SER_BE wrote, for a width of w bytes (40_packet_model.md R104, R105). -/
theorem desBE_serBE {n : Nat} (v : BitVec n) (w : Nat) (h : n = 8 * w) : desBE n (serBE v w) = v := by
  subst h
  apply BitVec.eq_of_toNat_eq
  have h2 : (2 : Nat) ^ (8 * w) = 256 ^ w := by rw [Nat.pow_mul]
  have h3 := v.isLt
  rw [desBE, BitVec.toNat_ofNat, beNat_serBE, h2, Nat.mod_mod, Nat.mod_eq_of_lt]
  omega

theorem beNat_lt (bs : List Byte) : beNat 0 bs < 256 ^ bs.length := by
  induction bs using List.reverseRecOn with
  | nil => simp [beNat]
  | append_singleton bs b ih =>
    rw [beNat_append, List.length_append]
    have := b.isLt
    simp only [List.length_singleton, Nat.pow_succ]
    omega

theorem serBE_congr {n m : Nat} (v : BitVec n) (u : BitVec m) (w : Nat)
    (h : v.toNat % 256 ^ w = u.toNat % 256 ^ w) : serBE v w = serBE u w := by
  induction w with
  | zero => rfl
  | succ w ih =>
    have h1 : (2 : Nat) ^ (8 * w) = 256 ^ w := by rw [Nat.pow_mul]
    have hlow : v.toNat % 256 ^ w = u.toNat % 256 ^ w := by
      have hd : 256 ^ w ∣ 256 ^ (w + 1) := pow_dvd_pow 256 (Nat.le_succ w)
      rw [← Nat.mod_mod_of_dvd _ hd, h, Nat.mod_mod_of_dvd _ hd]
    have hhigh : v.toNat / 256 ^ w % 256 = u.toNat / 256 ^ w % 256 := by
      have hv := Nat.mod_mul_right_div_self (m := v.toNat) (n := 256 ^ w) (k := 256)
      have hu := Nat.mod_mul_right_div_self (m := u.toNat) (n := 256 ^ w) (k := 256)
      rw [Nat.pow_succ] at h
      rw [← hv, ← hu, h]
    simp only [serBE, ih hlow]
    congr 1
    apply BitVec.eq_of_toNat_eq
    simp [Nat.shiftRight_eq_div_pow, h1, hhigh]

/-- SER_BE writes what DES_BE read, for a width of bs.length bytes (40_packet_model.md R104, R105). -/
theorem serBE_desBE (n : Nat) (bs : List Byte) (h : n = 8 * bs.length) : serBE (desBE n bs) bs.length = bs := by
  subst h
  have aux : ∀ (bs : List Byte) (m : Nat) (v : BitVec m), v.toNat % 256 ^ bs.length = beNat 0 bs →
      serBE v bs.length = bs := by
    intro bs
    induction bs with
    | nil => intros; rfl
    | cons b bs ih =>
      intro m v hv
      have hb := beNat_lt bs
      have hbl := b.isLt
      simp only [beNat, Nat.zero_mul, Nat.zero_add, List.length_cons] at hv
      rw [beNat_eq] at hv
      have hd : 256 ^ bs.length ∣ 256 ^ (bs.length + 1) := pow_dvd_pow 256 (Nat.le_succ _)
      have hlow : v.toNat % 256 ^ bs.length = beNat 0 bs := by
        rw [← Nat.mod_mod_of_dvd _ hd, hv, Nat.mul_add_mod_self_right, Nat.mod_eq_of_lt hb]
      simp only [List.length_cons, serBE, ih m v hlow]
      congr 1
      apply BitVec.eq_of_toNat_eq
      have h1 : (2 : Nat) ^ (8 * bs.length) = 256 ^ bs.length := by rw [Nat.pow_mul]
      have hq := Nat.mod_mul_right_div_self (m := v.toNat) (n := 256 ^ bs.length) (k := 256)
      rw [← Nat.pow_succ, hv] at hq
      simp only [BitVec.extractLsb'_toNat, Nat.shiftRight_eq_div_pow, h1, show (2 : Nat) ^ 8 = 256 from rfl]
      rw [← hq, Nat.mul_comm, Nat.mul_add_div (by positivity), Nat.div_eq_of_lt hb, Nat.add_zero]
  refine aux bs _ _ ?_
  have h2 : (2 : Nat) ^ (8 * bs.length) = 256 ^ bs.length := by rw [Nat.pow_mul]
  have hb := beNat_lt bs
  rw [desBE, BitVec.toNat_ofNat, h2, Nat.mod_mod, Nat.mod_eq_of_lt hb]

/-- STUFF has three cases (30_encoding.md R71). -/
theorem stuff_cases (b : Byte) :
    (b = endByte ∧ stuff b = [escByte, escEndByte]) ∨ (b = escByte ∧ stuff b = [escByte, escEscByte]) ∨
      (b ≠ endByte ∧ b ≠ escByte ∧ stuff b = [b]) := by
  unfold stuff
  split
  · exact .inl ⟨‹_›, rfl⟩
  · split
    · exact .inr (.inl ⟨‹_›, rfl⟩)
    · exact .inr (.inr ⟨‹_›, ‹_›, rfl⟩)

theorem length_stuffAll (u : List Byte) : (stuffAll u).length = u.length + escapedCount u := by
  induction u with
  | nil => rfl
  | cons b u ih =>
    rw [stuffAll, escapedCount, List.length_append, ih]
    rcases stuff_cases b with ⟨h, hs⟩ | ⟨h, hs⟩ | ⟨h1, h2, hs⟩
    · rw [hs, if_pos (.inl h)]; simp; omega
    · rw [hs, if_pos (.inr h)]; simp; omega
    · rw [hs, if_neg (by simp [h1, h2])]; simp; omega

theorem escapedCount_le (u : List Byte) : escapedCount u ≤ u.length := by
  induction u with
  | nil => exact Nat.le_refl 0
  | cons b u ih => simp only [escapedCount, List.length_cons]; split <;> omega

/-- The length of FRAME(u) is len(u) + the number of END and ESC bytes of u + 1 (30_encoding.md R73). -/
theorem length_frame (u : List Byte) : (frame u).length = u.length + escapedCount u + 1 := by
  simp [frame, length_stuffAll]

/-- A valid tag needs no escape (30_encoding.md R70). -/
theorem stuff_tag {t : Byte} (h : t.toNat ≤ 8) : stuff t = [t] := by
  have key : ∀ t : Byte, t.toNat ≤ 8 → stuff t = [t] := by decide
  exact key t h

end Sys2Proof
end

