-- ==== Sys2Proof/Laws/Decode.lean ====
section
/-! SUPPORT. Each reader of the decoder reads back what the encoder wrote, whatever follows. -/

namespace Sys2Proof

theorem readNat_natDigits (fuel n : Nat) (rest : List Byte) (h : n ≤ fuel) :
    readNat (natDigits fuel n ++ rest) = .ok (n, rest) := by
  induction fuel generalizing n with
  | zero =>
    have hn : n = 0 := by omega
    subst hn; rfl
  | succ fuel ih =>
    unfold natDigits
    by_cases hn : n < 128
    · have h1 : n % 256 = n := by omega
      simp [hn, readNat, h1]
    · have h1 : (n % 128 + 128) % 256 = n % 128 + 128 := by omega
      have h2 : ¬ n % 128 + 128 < 128 := by omega
      have h3 : n / 128 ≤ fuel := by omega
      simp [hn, readNat, h1, ih _ h3]
      omega

theorem readNat_encodeNat (n : Nat) (rest : List Byte) : readNat (encodeNat n ++ rest) = .ok (n, rest) :=
  readNat_natDigits n n rest (Nat.le_refl n)

theorem readField_serBE {n : Nat} (v : BitVec n) (w : Nat) (h : n = 8 * w) (rest : List Byte) :
    readField n w (serBE v w ++ rest) = .ok (v, rest) := by
  have hl := length_serBE v w
  unfold readField
  rw [if_neg (by rw [List.length_append, hl]; omega)]
  rw [List.take_append_of_le_length (by omega), List.take_of_length_le (by omega),
    List.drop_append_of_le_length (by omega), List.drop_of_length_le (by omega), desBE_serBE v w h]
  rfl

theorem readPayload_encodePayload (d : Payload) (rest : List Byte) :
    readPayload (encodePayload d ++ rest) = .ok (d, rest) := by
  cases d with
  | quat4 w x y z =>
    simp [encodePayload, readPayload, ser, readByte, bind, Except.bind, List.append_assoc, readField_serBE]
  | vec3 x y z =>
    simp [encodePayload, readPayload, ser, readByte, bind, Except.bind, List.append_assoc, readField_serBE]
  | rgb r g b => rfl
  | word v =>
    simp [encodePayload, readPayload, ser, readByte, bind, Except.bind, readField_serBE]
  | empty => rfl

end Sys2Proof
end

