-- ==== Sys2Proof/Laws/Memory.lean ====
section
/-! SUPPORT. The callers' memory: what a run of writes reads as, and that it keeps the canonical form. -/

namespace Sys2Proof.Machine

theorem Memory.read_append (m m' : List Host.Cell) (a : Nat) :
    Memory.read (m ++ m') a = (Memory.read m a).or (Memory.read m' a) := by
  induction m with
  | nil => simp [Memory.read]
  | cons c m ih =>
    obtain ⟨x, b⟩ := c
    by_cases h : x = a <;> simp [Memory.read, h, ih]

theorem Memory.read_filter_keep (p : Host.Cell → Bool) (m : List Host.Cell) (a : Nat)
    (h : ∀ b, p (a, b) = true) : Memory.read (m.filter p) a = Memory.read m a := by
  induction m with
  | nil => rfl
  | cons c m ih =>
    obtain ⟨x, b⟩ := c
    by_cases hx : x = a
    · subst hx; simp [h, Memory.read]
    · by_cases hp : p (x, b) = true <;> simp [hp, Memory.read, hx, ih]

theorem Memory.read_filter_drop (p : Host.Cell → Bool) (m : List Host.Cell) (a : Nat)
    (h : ∀ b, p (a, b) = false) : Memory.read (m.filter p) a = none := by
  induction m with
  | nil => rfl
  | cons c m ih =>
    obtain ⟨x, b⟩ := c
    by_cases hx : x = a
    · subst hx; simp [h, ih]
    · by_cases hp : p (x, b) = true <;> simp [hp, Memory.read, hx, ih]

theorem Memory.read_run (base : Nat) (bs : List Byte) (a : Nat) :
    Memory.read (Memory.run base bs) a = if base ≤ a then bs[a - base]? else none := by
  induction bs generalizing base with
  | nil => simp [Memory.run, Memory.read]
  | cons b bs ih =>
    simp only [Memory.run, Memory.read, ih]
    rcases Nat.lt_trichotomy base a with h | h | h
    · have h1 : a - base = (a - (base + 1)) + 1 := by omega
      simp [Nat.ne_of_lt h, Nat.le_of_lt h, Nat.succ_le_of_lt h, h1]
    · subst h; simp
    · have h1 : ¬ base + 1 ≤ a := by omega
      simp [Nat.ne_of_gt h, Nat.not_le_of_lt h, h1]

/-- A run of writes: the written addresses read the written bytes, every other address reads as before. -/
theorem Memory.read_writeRun (m : List Host.Cell) (base : Nat) (bs : List Byte) (a : Nat) :
    Memory.read (Memory.writeRun m base bs) a =
      if base ≤ a ∧ a < base + bs.length then bs[a - base]? else Memory.read m a := by
  unfold Memory.writeRun
  rw [Memory.read_append, Memory.read_append, Memory.read_run]
  rcases Nat.lt_or_ge a base with h | h
  · rw [Memory.read_filter_keep _ _ _ (by intro b; simpa using h),
      Memory.read_filter_drop _ _ _ (by intro b; simp; omega)]
    have h1 : ¬ base ≤ a := by omega
    simp [h1]
  · rw [Memory.read_filter_drop _ _ _ (by intro b; simpa using h)]
    rcases Nat.lt_or_ge a (base + bs.length) with h2 | h2
    · have h3 : a - base < bs.length := by omega
      simp [h, h2, h3]
    · rw [Memory.read_filter_keep _ _ _ (by intro b; simpa using h2)]
      have h3 : bs.length ≤ a - base := by omega
      have h4 : ¬ a < base + bs.length := by omega
      simp [h4, h3]

theorem Memory.mem_run {base : Nat} {bs : List Byte} {c : Host.Cell} (h : c ∈ Memory.run base bs) :
    base ≤ c.1 ∧ c.1 < base + bs.length := by
  induction bs generalizing base with
  | nil => simp [Memory.run] at h
  | cons b bs ih =>
    rcases List.mem_cons.1 h with rfl | h
    · simp
    · have := ih h; simp; omega

theorem Memory.run_wf (base : Nat) (bs : List Byte) : Memory.wf (Memory.run base bs) := by
  induction bs generalizing base with
  | nil => exact List.Pairwise.nil
  | cons b bs ih =>
    refine List.Pairwise.cons (fun c hc => ?_) (ih _)
    have := (Memory.mem_run hc).1
    simp; omega

/-- A run of writes keeps the canonical form. -/
theorem Memory.writeRun_wf {m : List Host.Cell} (hm : Memory.wf m) (base : Nat) (bs : List Byte) :
    Memory.wf (Memory.writeRun m base bs) := by
  have hrun := Memory.run_wf base bs
  unfold Memory.writeRun Memory.wf
  simp only [List.pairwise_append, List.mem_append, List.mem_filter, decide_eq_true_eq]
  refine ⟨⟨hm.filter _, hrun, fun x hx y hy => ?_⟩, hm.filter _, fun x hx y hy => ?_⟩
  · have := (Memory.mem_run hy).1; omega
  · rcases hx with hx | hx
    · omega
    · have := (Memory.mem_run hx).2; omega

/-- Writing a run is writing its bytes one after another: MemWrite(OUT, i, w[i]) in order (41_pack.md R120). -/
theorem Memory.read_writeRun_cons (m : List Host.Cell) (base : Nat) (b : Byte) (bs : List Byte) (a : Nat) :
    Memory.read (Memory.writeRun m base (b :: bs)) a =
      Memory.read (Memory.writeRun (Memory.writeRun m base [b]) (base + 1) bs) a := by
  simp only [Memory.read_writeRun, List.length_cons, List.length_nil]
  rcases Nat.lt_trichotomy base a with h | h | h
  · have h1 : a - base = (a - (base + 1)) + 1 := by omega
    by_cases h2 : a < base + (bs.length + 1)
    · have h3 : base ≤ a := by omega
      have h4 : base + 1 ≤ a ∧ a < base + 1 + bs.length := by omega
      simp [h2, h3, h4, h1]
    · have h4 : ¬ (base + 1 ≤ a ∧ a < base + 1 + bs.length) := by omega
      have h5 : ¬ (base ≤ a ∧ a < base + (0 + 1)) := by omega
      simp only [h2, h4, h5, and_false, if_false]
  · subst h; simp
  · have h1 : ¬ base ≤ a := by omega
    have h2 : ¬ base + 1 ≤ a := by omega
    simp [h1, h2]

theorem freeBytes_length (d n : Nat) : (freeBytes d n).length = n := by
  induction n generalizing d with
  | zero => rfl
  | succ n ih => simp [freeBytes, ih]

/-- What a successful PACK's write leaves at an address: the frame, then free bytes, then the old contents. -/
theorem State.readByte_writeOut (s : State) (out cap : Nat) (w : List Byte) (h : w.length ≤ cap) (a : Nat) :
    (s.writeOut out cap w).readByte a =
      if out ≤ a ∧ a < out + cap then (w ++ freeBytes s.draws (cap - w.length))[a - out]? else s.readByte a := by
  have hl : (w ++ freeBytes s.draws (cap - w.length)).length = cap := by
    rw [List.length_append, freeBytes_length]; omega
  unfold State.readByte State.writeOut
  simp only [Memory.read_writeRun, hl]

end Sys2Proof.Machine
end

