-- ==== Sys2Proof/Laws/State.lean ====
section
/-! SUPPORT. One lemma per field per update of State and Session, true by rfl, so that no proof unfolds a record
update. -/

namespace Sys2Proof.Machine

@[simp] theorem State.answer_sessions (s : State) (r : Result) :
    (s.answer r).sessions = s.sessions := rfl
@[simp] theorem State.answer_mem (s : State) (r : Result) :
    (s.answer r).mem = s.mem := rfl
@[simp] theorem State.answer_priority (s : State) (r : Result) :
    (s.answer r).priority = s.priority := rfl
@[simp] theorem State.answer_result (s : State) (r : Result) :
    (s.answer r).result = some r := rfl
@[simp] theorem State.answer_queue (s : State) (r : Result) :
    (s.answer r).queue = s.queue := rfl
@[simp] theorem State.answer_caller (s : State) (r : Result) :
    (s.answer r).caller = s.caller := rfl
@[simp] theorem State.answer_draws (s : State) (r : Result) :
    (s.answer r).draws = s.draws := rfl

@[simp] theorem State.setSession_sessions (s : State) (k : Nat) (S : Session) :
    (s.setSession k S).sessions = s.sessions.set k (some S) := rfl
@[simp] theorem State.setSession_mem (s : State) (k : Nat) (S : Session) :
    (s.setSession k S).mem = s.mem := rfl
@[simp] theorem State.setSession_priority (s : State) (k : Nat) (S : Session) :
    (s.setSession k S).priority = s.priority := rfl
@[simp] theorem State.setSession_result (s : State) (k : Nat) (S : Session) :
    (s.setSession k S).result = s.result := rfl
@[simp] theorem State.setSession_queue (s : State) (k : Nat) (S : Session) :
    (s.setSession k S).queue = s.queue := rfl
@[simp] theorem State.setSession_caller (s : State) (k : Nat) (S : Session) :
    (s.setSession k S).caller = s.caller := rfl
@[simp] theorem State.setSession_draws (s : State) (k : Nat) (S : Session) :
    (s.setSession k S).draws = s.draws := rfl

@[simp] theorem State.writeOut_sessions (s : State) (out cap : Nat) (w : List Byte) :
    (s.writeOut out cap w).sessions = s.sessions := rfl
@[simp] theorem State.writeOut_mem (s : State) (out cap : Nat) (w : List Byte) :
    (s.writeOut out cap w).mem = Memory.writeRun s.mem out (w ++ freeBytes s.draws (cap - w.length)) := rfl
@[simp] theorem State.writeOut_priority (s : State) (out cap : Nat) (w : List Byte) :
    (s.writeOut out cap w).priority = s.priority := rfl
@[simp] theorem State.writeOut_result (s : State) (out cap : Nat) (w : List Byte) :
    (s.writeOut out cap w).result = s.result := rfl
@[simp] theorem State.writeOut_queue (s : State) (out cap : Nat) (w : List Byte) :
    (s.writeOut out cap w).queue = s.queue := rfl
@[simp] theorem State.writeOut_caller (s : State) (out cap : Nat) (w : List Byte) :
    (s.writeOut out cap w).caller = s.caller := rfl
@[simp] theorem State.writeOut_draws (s : State) (out cap : Nat) (w : List Byte) :
    (s.writeOut out cap w).draws = s.draws + (cap - w.length) := rfl

@[simp] theorem State.commit_sessions (s : State) (k : Nat) (r : Session × Result) :
    (s.commit k r).sessions = s.sessions.set k (some r.1) := rfl
@[simp] theorem State.commit_mem (s : State) (k : Nat) (r : Session × Result) :
    (s.commit k r).mem = s.mem := rfl
@[simp] theorem State.commit_priority (s : State) (k : Nat) (r : Session × Result) :
    (s.commit k r).priority = s.priority := rfl
@[simp] theorem State.commit_result (s : State) (k : Nat) (r : Session × Result) :
    (s.commit k r).result = some r.2 := rfl
@[simp] theorem State.commit_queue (s : State) (k : Nat) (r : Session × Result) :
    (s.commit k r).queue = s.queue := rfl
@[simp] theorem State.commit_caller (s : State) (k : Nat) (r : Session × Result) :
    (s.commit k r).caller = s.caller := rfl
@[simp] theorem State.commit_draws (s : State) (k : Nat) (r : Session × Result) :
    (s.commit k r).draws = s.draws := rfl

@[simp] theorem State.after_sessions (s : State) (k : Nat) (S : Session) (r : Result) :
    (s.after k S r).sessions = s.sessions.set k (some S) := rfl
@[simp] theorem State.after_mem (s : State) (k : Nat) (S : Session) (r : Result) :
    (s.after k S r).mem = s.mem := rfl
@[simp] theorem State.after_priority (s : State) (k : Nat) (S : Session) (r : Result) :
    (s.after k S r).priority = s.priority := rfl
@[simp] theorem State.after_result (s : State) (k : Nat) (S : Session) (r : Result) :
    (s.after k S r).result = some r := rfl
@[simp] theorem State.after_queue (s : State) (k : Nat) (S : Session) (r : Result) :
    (s.after k S r).queue = s.queue := rfl
@[simp] theorem State.after_caller (s : State) (k : Nat) (S : Session) (r : Result) :
    (s.after k S r).caller = s.caller := rfl
@[simp] theorem State.after_draws (s : State) (k : Nat) (S : Session) (r : Result) :
    (s.after k S r).draws = s.draws := rfl

@[simp] theorem State.raise_sessions (s : State) (e : ErrorKind) :
    (s.raise e).sessions = s.sessions := rfl
@[simp] theorem State.raise_mem (s : State) (e : ErrorKind) :
    (s.raise e).mem = s.mem := rfl
@[simp] theorem State.raise_priority (s : State) (e : ErrorKind) :
    (s.raise e).priority = s.priority := rfl
@[simp] theorem State.raise_result (s : State) (e : ErrorKind) :
    (s.raise e).result = some (.error e) := rfl
@[simp] theorem State.raise_queue (s : State) (e : ErrorKind) :
    (s.raise e).queue = s.queue := rfl
@[simp] theorem State.raise_caller (s : State) (e : ErrorKind) :
    (s.raise e).caller = s.caller := rfl
@[simp] theorem State.raise_draws (s : State) (e : ErrorKind) :
    (s.raise e).draws = s.draws := rfl

@[simp] theorem State.withFetchWord_sessions (s : State) (nbits w : Nat) :
    (s.withFetchWord nbits w).sessions = s.sessions := rfl
@[simp] theorem State.withFetchWord_mem (s : State) (nbits w : Nat) :
    (s.withFetchWord nbits w).mem = s.mem := rfl
@[simp] theorem State.withFetchWord_priority (s : State) (nbits w : Nat) :
    (s.withFetchWord nbits w).priority = s.priority := rfl
@[simp] theorem State.withFetchWord_result (s : State) (nbits w : Nat) :
    (s.withFetchWord nbits w).result = s.result := rfl
@[simp] theorem State.withFetchWord_queue (s : State) (nbits w : Nat) :
    (s.withFetchWord nbits w).queue = ⟨s.caller, tableFormat nbits w, tableBytes nbits w⟩ :: s.queue := rfl
@[simp] theorem State.withFetchWord_caller (s : State) (nbits w : Nat) :
    (s.withFetchWord nbits w).caller = s.caller := rfl
@[simp] theorem State.withFetchWord_draws (s : State) (nbits w : Nat) :
    (s.withFetchWord nbits w).draws = s.draws := rfl

@[simp] theorem Session.setEsc_esc (S : Session) : S.setEsc.esc = true := rfl
@[simp] theorem Session.setEsc_buf (S : Session) : S.setEsc.buf = S.buf := rfl
@[simp] theorem Session.setEsc_driver (S : Session) : S.setEsc.driver = S.driver := rfl

@[simp] theorem Session.clearEsc_esc (S : Session) : S.clearEsc.esc = false := rfl
@[simp] theorem Session.clearEsc_buf (S : Session) : S.clearEsc.buf = S.buf := rfl
@[simp] theorem Session.clearEsc_driver (S : Session) : S.clearEsc.driver = S.driver := rfl

@[simp] theorem Session.empty_esc (S : Session) : S.empty.esc = false := rfl
@[simp] theorem Session.empty_buf (S : Session) : S.empty.buf = [] := rfl
@[simp] theorem Session.empty_driver (S : Session) : S.empty.driver = S.driver := rfl

@[simp] theorem Session.idled_esc (S : Session) : S.idled.esc = false := rfl
@[simp] theorem Session.idled_buf (S : Session) : S.idled.buf = [] := rfl
@[simp] theorem Session.idled_driver (S : Session) : S.idled.driver = S.driver := rfl

@[simp] theorem Session.fresh_esc (c : Nat) : (Session.fresh c).esc = false := rfl
@[simp] theorem Session.fresh_buf (c : Nat) : (Session.fresh c).buf = [] := rfl
@[simp] theorem Session.fresh_driver (c : Nat) : (Session.fresh c).driver = c := rfl

/-- What the machine's two names for "session k takes S and the operation returns r" have in common. -/
theorem State.commit_eq_after (s : State) (k : Nat) (r : Session × Result) :
    s.commit k r = s.after k r.1 r.2 := rfl

theorem Session.empty_eq_idled (S : Session) : S.empty = S.idled := rfl

end Sys2Proof.Machine
end

