-- ==== Sys2Proof/Laws/Ops.lean ====
section
/-! SUPPORT. One lemma per shared operation that says everything it can do; the provers cite it instead of unfolding
the operation. -/

namespace Sys2Proof.Machine

/-- A session opens exactly when it is created and its driver is the caller. -/
theorem State.openSession_ok_iff (s : State) (k : Nat) (S : Session) :
    s.openSession k = .ok S ↔ s.drives k S := by
  unfold State.openSession State.drives
  constructor
  · intro h
    split at h
    · cases h
    · cases h
    · split at h
      · cases h; exact ⟨‹_›, ‹_›⟩
      · cases h
  · rintro ⟨h1, h2⟩
    simp [h1, h2]

/-- Everything opening a session can do. -/
theorem State.openSession_cases (s : State) (k : Nat) :
    (s.sessions[k]? = none ∧ s.openSession k = .error .noSuchSession) ∨
    (s.sessions[k]? = some none ∧ s.openSession k = .error .uninitialisedSession) ∨
    (∃ S, s.sessions[k]? = some (some S) ∧ S.driver ≠ s.caller ∧ s.openSession k = .error .sharedSession) ∨
    (∃ S, s.drives k S ∧ s.openSession k = .ok S) := by
  unfold State.openSession State.drives
  split
  · exact .inl ⟨‹_›, rfl⟩
  · exact .inr (.inl ⟨‹_›, rfl⟩)
  · rename_i S h
    by_cases hd : S.driver = s.caller
    · exact .inr (.inr (.inr ⟨S, ⟨h, hd⟩, by simp [hd]⟩))
    · exact .inr (.inr (.inl ⟨S, h, hd, by simp [hd]⟩))

/-- Everything initialising a session can do: what it leaves is a fresh session of the caller's. -/
theorem State.initSession_cases (s : State) (k : Nat) :
    (s.mayInit k ∧ s.initSession k = .ok (Session.fresh s.caller)) ∨
    (s.sessions[k]? = none ∧ s.initSession k = .error .noSuchSession) ∨
    (∃ S, s.sessions[k]? = some (some S) ∧ S.driver ≠ s.caller ∧ s.initSession k = .error .sharedSession) := by
  unfold State.initSession
  split
  · exact .inr (.inl ⟨‹_›, rfl⟩)
  · exact .inl ⟨.inl ‹_›, rfl⟩
  · rename_i S h
    by_cases hd : S.driver = s.caller
    · exact .inl ⟨.inr ⟨S, h, hd⟩, by rw [if_pos hd, ← hd]; rfl⟩
    · exact .inr (.inr ⟨S, h, hd, if_neg hd⟩)

/-- A session that may be initialised has its slot. -/
theorem State.mayInit_lt {s : State} {k : Nat} (h : s.mayInit k) : k < s.sessions.length := by
  rcases h with h | ⟨S, h, -⟩ <;> exact (List.getElem?_eq_some_iff.1 h).1

/-- APPEND overflows exactly at idx = 17 and otherwise grows the buffer by one byte (42_unpack.md R148). -/
theorem Session.append_cases (S : Session) (b : Byte) :
    (S.buf.length = 17 ∧ S.append b = (S.idled, .error .overflow)) ∨
    (S.buf.length ≠ 17 ∧ S.append b = ({ S with buf := S.buf ++ [b] }, .incomplete)) := by
  unfold Session.append Session.idx unpackedMaxSize
  split
  · exact .inl ⟨‹_›, rfl⟩
  · exact .inr ⟨‹_›, rfl⟩

/-- When the buffer holds a packet: it is a valid type byte and a payload of its size (42_unpack.md R145). -/
theorem Session.received_eq_some_iff (S : Session) (p : Packet) :
    S.received = some p ↔
      ∃ t bs ty, S.buf = t :: bs ∧ PacketType.ofTag t = some ty ∧ bs.length = ty.psize ∧ p = ⟨ty, des ty bs⟩ := by
  unfold Session.received
  constructor
  · intro h
    split at h
    · cases h
    · rename_i t bs hb
      split at h
      · cases h
      · rename_i ty ht
        split at h
        · cases h; exact ⟨t, bs, ty, hb, ht, ‹_›, rfl⟩
        · cases h
  · rintro ⟨t, bs, ty, hb, ht, hl, rfl⟩
    rw [hb]
    simp [ht, hl]

/-- What DES delivers has the variant of its type (40_packet_model.md R101, R107). -/
theorem des_kind (ty : PacketType) (bs : List Byte) : (des ty bs).kind = ty.kind := by
  cases ty <;> rfl

/-- The cases of UNPACK with what each does: exactly one applies, and this is all UNPACK can do (42_unpack.md R149). -/
theorem Session.unpack_cases (S : Session) (c : Byte) :
    (S.esc = true ∧ c = escEndByte ∧ S.classify c = .escEnd ∧ S.unpack c = S.clearEsc.append endByte) ∨
    (S.esc = true ∧ c = escEscByte ∧ S.classify c = .escEsc ∧ S.unpack c = S.clearEsc.append escByte) ∨
    (S.esc = true ∧ c ≠ escEndByte ∧ c ≠ escEscByte ∧ S.classify c = .escBad ∧
      S.unpack c = (S.idled, .error .framingError)) ∨
    (S.esc = false ∧ c = escByte ∧ S.classify c = .esc ∧ S.unpack c = (S.setEsc, .incomplete)) ∨
    (S.esc = false ∧ c = endByte ∧ S.buf = [] ∧ S.classify c = .endEmpty ∧ S.unpack c = (S, .incomplete)) ∨
    (∃ p, S.esc = false ∧ c = endByte ∧ S.received = some p ∧ S.classify c = .endFrame p ∧
      S.unpack c = (S.idled, .packetReady p)) ∨
    (S.esc = false ∧ c = endByte ∧ S.buf ≠ [] ∧ S.received = none ∧ S.classify c = .endMalformed ∧
      S.unpack c = (S.idled, .error .malformedPacket)) ∨
    (S.esc = false ∧ c ≠ escByte ∧ c ≠ endByte ∧ S.classify c = .data ∧ S.unpack c = S.append c) := by
  have hu : ∀ r, S.classify c = r → S.unpack c = S.takeRow c r := by rintro r rfl; rfl
  cases he : S.esc with
  | true =>
    by_cases h1 : c = escEndByte
    · have hc : S.classify c = .escEnd := by simp [Session.classify, he, h1]
      exact .inl ⟨rfl, h1, hc, hu _ hc⟩
    · by_cases h2 : c = escEscByte
      · have hc : S.classify c = .escEsc := by subst h2; simp [Session.classify, he, escEscByte, escEndByte]
        exact .inr (.inl ⟨rfl, h2, hc, hu _ hc⟩)
      · have hc : S.classify c = .escBad := by simp [Session.classify, he, h1, h2]
        exact .inr (.inr (.inl ⟨rfl, h1, h2, hc, hu _ hc⟩))
  | false =>
    by_cases h1 : c = escByte
    · have hc : S.classify c = .esc := by simp [Session.classify, he, h1]
      exact .inr (.inr (.inr (.inl ⟨rfl, h1, hc, hu _ hc⟩)))
    · by_cases h2 : c = endByte
      · by_cases h3 : S.buf = []
        · have hc : S.classify c = .endEmpty := by
            subst h2; simp [Session.classify, he, h3, Session.idx, endByte, escByte]
          exact .inr (.inr (.inr (.inr (.inl ⟨rfl, h2, h3, hc, hu _ hc⟩))))
        · have h4 : S.idx ≠ 0 := by simpa [Session.idx] using h3
          cases hr : S.received with
          | some p =>
            have hc : S.classify c = .endFrame p := by
              subst h2; simp [Session.classify, he, h4, hr, endByte, escByte]
            exact .inr (.inr (.inr (.inr (.inr (.inl ⟨p, rfl, h2, rfl, hc, hu _ hc⟩)))))
          | none =>
            have hc : S.classify c = .endMalformed := by
              subst h2; simp [Session.classify, he, h4, hr, endByte, escByte]
            exact .inr (.inr (.inr (.inr (.inr (.inr (.inl ⟨rfl, h2, h3, rfl, hc, hu _ hc⟩))))))
      · have hc : S.classify c = .data := by simp [Session.classify, he, h1, h2]
        exact .inr (.inr (.inr (.inr (.inr (.inr (.inr ⟨rfl, h1, h2, hc, hu _ hc⟩))))))

/-- Everything UNPACK can do. -/
theorem execUnpack_next_iff (k : Nat) (c : Byte) (s t : State) :
    execUnpack k c s = .next t ↔ ∃ S, s.drives k S ∧ t = s.after k (S.unpack c).1 (S.unpack c).2 := by
  unfold execUnpack
  constructor
  · intro h
    cases ho : s.openSession k with
    | error r => rw [ho] at h; cases h
    | ok S =>
      rw [ho] at h
      cases h
      exact ⟨S, (s.openSession_ok_iff k S).1 ho, rfl⟩
  · rintro ⟨S, hd, rfl⟩
    rw [(s.openSession_ok_iff k S).2 hd]
    rfl

/-- Everything a wire_byte row can do when it completes: it is UNPACK, on a session and byte that select it. -/
theorem unpackRow_next_iff (sel : WireRow → Bool) (k : Nat) (c : Byte) (s t : State) :
    unpackRow sel k c s = .next t ↔
      ∃ S, s.drives k S ∧ sel (S.classify c) = true ∧ t = s.after k (S.unpack c).1 (S.unpack c).2 := by
  unfold unpackRow
  constructor
  · intro h
    cases ho : s.openSession k with
    | error r => rw [ho] at h; cases h
    | ok S =>
      rw [ho] at h
      by_cases hs : sel (S.classify c) = true
      · simp only [hs, if_true] at h
        cases h
        exact ⟨S, (s.openSession_ok_iff k S).1 ho, hs, rfl⟩
      · simp only [hs] at h; cases h
  · rintro ⟨S, hd, hs, rfl⟩
    rw [(s.openSession_ok_iff k S).2 hd]
    simp only [hs, if_true]
    rfl

/-- Everything LAYOUT can do. -/
theorem execLayout_cases (t : Byte) (s : State) :
    (8 < t.toNat ∧ execLayout t s = .next (s.answer (.error .invalidType))) ∨
    (∃ ty, PacketType.ofTag t = some ty ∧ execLayout t s = .next (s.answer (.layout ty.layout))) := by
  unfold execLayout
  cases h : PacketType.ofTag t with
  | none => exact .inl ⟨(PacketType.ofTag_eq_none_iff t).1 h, rfl⟩
  | some ty => exact .inr ⟨ty, rfl, rfl⟩

/-- PACK's input is not well-formed exactly when the tag is valid and the variant is another kind's. -/
theorem packInputOk_eq_false_iff (t : Byte) (data : Payload) :
    packInputOk t data = false ↔ ∃ ty, PacketType.ofTag t = some ty ∧ data.kind ≠ ty.kind := by
  unfold packInputOk
  cases h : PacketType.ofTag t <;> simp

/-- When PACK raises no error. -/
theorem packError_eq_none_iff (p : PackErrPriority) (t : Byte) (cap : Nat) :
    packError p t cap = none ↔ 34 ≤ cap ∧ ∃ ty, PacketType.ofTag t = some ty := by
  unfold packError packetMaxSize
  cases h : PacketType.ofTag t <;> cases p <;> by_cases hc : cap < 34 <;> simp [hc] <;> omega

/-- The errors PACK raises (41_pack.md R124). -/
theorem packError_eq_some {p : PackErrPriority} {t : Byte} {cap : Nat} {e : ErrorKind}
    (h : packError p t cap = some e) : e = .invalidType ∨ e = .bufferTooSmall := by
  unfold packError at h
  split at h
  · split at h
    · cases p <;> simp_all
    · simp_all
  · split at h <;> simp_all

/-- Everything PACK can do. -/
theorem execPack_cases (t : Byte) (data : Payload) (cap out : Nat) (s : State) :
    (packInputOk t data = false ∧ execPack t data cap out s = .refused .payloadMismatch) ∨
    (∃ e, packInputOk t data = true ∧ packError s.priority t cap = some e ∧
      execPack t data cap out s = .next (s.answer (.error e))) ∨
    (∃ ty, PacketType.ofTag t = some ty ∧ data.kind = ty.kind ∧ 34 ≤ cap ∧
      execPack t data cap out s =
        .next ((s.writeOut out cap (frame (unframed t data))).answer (.packed (frame (unframed t data)).length))) := by
  unfold execPack
  cases hi : packInputOk t data with
  | false => exact .inl ⟨rfl, by simp⟩
  | true =>
    cases he : packError s.priority t cap with
    | some e => exact .inr (.inl ⟨e, rfl, rfl, by simp [State.raise]⟩)
    | none =>
      obtain ⟨hc, ty, ht⟩ := (packError_eq_none_iff _ _ _).1 he
      have hk : data.kind = ty.kind := by
        by_contra hne
        have := (packInputOk_eq_false_iff t data).2 ⟨ty, ht, hne⟩
        rw [hi] at this; cases this
      exact .inr (.inr ⟨ty, ht, hk, hc, by simp⟩)

/-- Everything SESSION_INIT can do. -/
theorem execSessionInit_cases (k : Nat) (s : State) :
    (s.mayInit k ∧ execSessionInit k s = .next (s.after k (Session.fresh s.caller) .unit)) ∨
    (s.sessions.length ≤ k ∧ execSessionInit k s = .refused .noSuchSession) ∨
    (∃ S, s.sessions[k]? = some (some S) ∧ S.driver ≠ s.caller ∧ execSessionInit k s = .refused .sharedSession) := by
  unfold execSessionInit
  rcases s.initSession_cases k with ⟨h, hx⟩ | ⟨h, hx⟩ | ⟨S, h, hd, hx⟩ <;> rw [hx]
  · exact .inl ⟨h, rfl⟩
  · exact .inr (.inl ⟨List.getElem?_eq_none_iff.1 h, rfl⟩)
  · exact .inr (.inr ⟨S, h, hd, rfl⟩)

/-- Everything STUFF.LITERAL can do. -/
theorem execStuffLiteral_cases (b : Byte) (s : State) :
    ((b = endByte ∨ b = escByte) ∧ execStuffLiteral b s = .refused .rowNotSelected) ∨
    (b ≠ endByte ∧ b ≠ escByte ∧ execStuffLiteral b s = .next (s.answer (.stuffed [b]))) := by
  unfold execStuffLiteral
  split
  · exact .inl ⟨‹_›, rfl⟩
  · rename_i h
    rw [not_or] at h
    exact .inr ⟨h.1, h.2, by simp [stuff, h.1, h.2]⟩

/-- Everything TAG.INVALID can do. -/
theorem execTagInvalid_cases (t : Byte) (s : State) :
    (8 < t.toNat ∧ execTagInvalid t s = .next (s.answer .untagged)) ∨
    (t.toNat ≤ 8 ∧ execTagInvalid t s = .refused .rowNotSelected) := by
  unfold execTagInvalid
  cases h : PacketType.ofTag t with
  | none => exact .inl ⟨(PacketType.ofTag_eq_none_iff t).1 h, rfl⟩
  | some ty => exact .inr ⟨(PacketType.tag_of_ofTag h).2, rfl⟩

/-- Everything a fetch can do. -/
theorem State.fetch_cases (s : State) :
    (s.queue = [] ∧ s.fetch = none) ∨
    (∃ r rest, s.queue = r :: rest ∧ s.fetch = some (r, { s with queue := rest, caller := r.caller })) := by
  unfold State.fetch
  cases h : s.queue with
  | nil => exact .inl ⟨rfl, rfl⟩
  | cons r rest => exact .inr ⟨r, rest, rfl, rfl⟩

/-- Everything a step can do. -/
theorem step_cases (s : State) :
    (s.queue = [] ∧ step s = .next s) ∨
    (∃ r rest e, s.queue = r :: rest ∧ decode r.format r.bytes = .error e ∧ step s = .refused (.undecodable e)) ∨
    (∃ r rest i, s.queue = r :: rest ∧ decode r.format r.bytes = .ok i ∧
      step s = exec i { s with queue := rest, caller := r.caller }) := by
  unfold step
  rcases s.fetch_cases with ⟨hq, hf⟩ | ⟨r, rest, hq, hf⟩
  · rw [hf]; exact .inl ⟨hq, rfl⟩
  · rw [hf]
    cases hd : decode r.format r.bytes with
    | error e => exact .inr (.inl ⟨r, rest, e, hq, hd, by simp [hd]⟩)
    | ok i => exact .inr (.inr ⟨r, rest, i, hq, hd, by simp [hd]⟩)

/-! ## The arms of the wire_byte rows, and when they complete -/

theorem exec_unpackEscEnd (k : Nat) (s : State) :
    exec (.unpackEscEnd k) s = unpackRow (fun r => r matches .escEnd) k escEndByte s := rfl

theorem exec_unpackEscEsc (k : Nat) (s : State) :
    exec (.unpackEscEsc k) s = unpackRow (fun r => r matches .escEsc) k escEscByte s := rfl

theorem exec_unpackEscBad (k : Nat) (c : Byte) (s : State) :
    exec (.unpackEscBad k c) s = unpackRow (fun r => r matches .escBad) k c s := rfl

theorem exec_unpackEsc (k : Nat) (s : State) :
    exec (.unpackEsc k) s = unpackRow (fun r => r matches .esc) k escByte s := rfl

theorem exec_unpackEndEmpty (k : Nat) (s : State) :
    exec (.unpackEndEmpty k) s = unpackRow (fun r => r matches .endEmpty) k endByte s := rfl

theorem exec_unpackEndFrame (k : Nat) (s : State) :
    exec (.unpackEndFrame k) s = unpackRow (fun r => r matches .endFrame _) k endByte s := rfl

theorem exec_unpackEndMalformed (k : Nat) (s : State) :
    exec (.unpackEndMalformed k) s = unpackRow (fun r => r matches .endMalformed) k endByte s := rfl

theorem exec_unpackData (k : Nat) (c : Byte) (s : State) :
    exec (.unpackData k c) s = unpackRow (fun r => r matches .data) k c s := rfl

/-- On a session its caller drives, UNPACK completes. -/
theorem exec_unpack_of_drives {s : State} {k : Nat} {S : Session} (c : Byte) (h : s.drives k S) :
    exec (.unpack k c) s = .next (s.after k (S.unpack c).1 (S.unpack c).2) :=
  (execUnpack_next_iff k c s _).2 ⟨S, h, rfl⟩

/-- A row that the byte selects completes as UNPACK does. -/
theorem unpackRow_of_selected {sel : WireRow → Bool} {s : State} {k : Nat} {S : Session} {c : Byte}
    (h : s.drives k S) (hs : sel (S.classify c) = true) :
    unpackRow sel k c s = .next (s.after k (S.unpack c).1 (S.unpack c).2) :=
  (unpackRow_next_iff sel k c s _).2 ⟨S, h, hs, rfl⟩

/-- A row that the byte does not select is refused. -/
theorem unpackRow_of_not_selected {sel : WireRow → Bool} {s : State} {k : Nat} {S : Session} {c : Byte}
    (h : s.drives k S) (hs : sel (S.classify c) = false) : unpackRow sel k c s = .refused .rowNotSelected := by
  unfold unpackRow
  rw [(s.openSession_ok_iff k S).2 h]
  simp [hs]

/-- Putting back the session that is there changes nothing but the result. -/
theorem State.after_self {s : State} {k : Nat} {S : Session} (h : s.drives k S) (r : Result) :
    s.after k S r = s.answer r := by
  unfold State.after State.answer
  congr 1
  obtain ⟨hl, he⟩ := List.getElem?_eq_some_iff.1 h.1
  rw [← he, List.set_getElem_self]

/-- The session just written is the one read back, and its caller drives it if it drove it before. -/
theorem State.after_drives {s : State} {k : Nat} {S S' : Session} (r : Result) (h : s.drives k S)
    (hd : S'.driver = S.driver) : (s.after k S' r).drives k S' := by
  obtain ⟨hl, -⟩ := List.getElem?_eq_some_iff.1 h.1
  exact ⟨by simp [hl], hd.trans h.2⟩

/-- UNPACK never changes who drives the session. -/
theorem Session.unpack_driver (S : Session) (c : Byte) : (S.unpack c).1.driver = S.driver := by
  rcases S.unpack_cases c with ⟨-, -, -, h⟩ | ⟨-, -, -, h⟩ | ⟨-, -, -, -, h⟩ | ⟨-, -, -, h⟩ | ⟨-, -, -, -, h⟩ |
    ⟨p, -, -, -, -, h⟩ | ⟨-, -, -, -, -, h⟩ | ⟨-, -, -, -, h⟩ <;> rw [h]
  · rcases S.clearEsc.append_cases endByte with ⟨-, ha⟩ | ⟨-, ha⟩ <;> rw [ha] <;> rfl
  · rcases S.clearEsc.append_cases escByte with ⟨-, ha⟩ | ⟨-, ha⟩ <;> rw [ha] <;> rfl
  · rfl
  · rfl
  · rfl
  · rfl
  · rcases S.append_cases c with ⟨-, ha⟩ | ⟨-, ha⟩ <;> simp [ha]

/-- Everything an instruction that completes can do: it leaves session k as UNPACK of some byte, or SESSION_INIT,
leaves it; or it is a PACK that wrote its frame; or it only returns a result. -/
theorem exec_next_cases {i : Instr} {s t : State} (h : exec i s = .next t) :
    (∃ k c S, i.session = some k ∧ (∀ j, i ≠ .sessionInit j) ∧ s.drives k S ∧
      t = s.after k (S.unpack c).1 (S.unpack c).2 ∧ exec (.unpack k c) s = .next t) ∨
    (∃ k, i = .sessionInit k ∧ s.mayInit k ∧ t = s.after k (Session.fresh s.caller) .unit) ∨
    (∃ tag data cap out ty, i = .pack tag data cap out ∧ PacketType.ofTag tag = some ty ∧ data.kind = ty.kind ∧
      34 ≤ cap ∧ t = (s.writeOut out cap (frame (unframed tag data))).answer
        (.packed (frame (unframed tag data)).length)) ∨
    (∃ r, i.session = none ∧ t = s.answer r ∧ ∀ n, r ≠ .packed n) := by
  have row : ∀ (sel : WireRow → Bool) (k : Nat) (c : Byte), unpackRow sel k c s = .next t →
      ∃ S, s.drives k S ∧ t = s.after k (S.unpack c).1 (S.unpack c).2 ∧ exec (.unpack k c) s = .next t := by
    intro sel k c hr
    obtain ⟨S, hd, -, ht⟩ := (unpackRow_next_iff sel k c s t).1 hr
    exact ⟨S, hd, ht, (execUnpack_next_iff k c s t).2 ⟨S, hd, ht⟩⟩
  cases i with
  | layout tag =>
    rcases execLayout_cases tag s with ⟨-, hx⟩ | ⟨ty, -, hx⟩ <;>
      (rw [exec, hx] at h; cases h; exact .inr (.inr (.inr ⟨_, rfl, rfl, by simp⟩)))
  | pack tag data cap out =>
    rcases execPack_cases tag data cap out s with ⟨-, hx⟩ | ⟨e, -, -, hx⟩ | ⟨ty, ht, hk, hc, hx⟩ <;>
      rw [exec, hx] at h <;> cases h
    · exact .inr (.inr (.inr ⟨_, rfl, rfl, by simp⟩))
    · exact .inr (.inr (.inl ⟨tag, data, cap, out, ty, rfl, ht, hk, hc, rfl⟩))
  | unpack k c =>
    obtain ⟨S, hd, ht⟩ := (execUnpack_next_iff k c s t).1 h
    exact .inl ⟨k, c, S, rfl, by simp, hd, ht, h⟩
  | sessionInit k =>
    rcases execSessionInit_cases k s with ⟨hk, hx⟩ | ⟨-, hx⟩ | ⟨S, -, -, hx⟩ <;> rw [exec, hx] at h <;> cases h
    exact .inr (.inl ⟨k, rfl, hk, rfl⟩)
  | unpackEscEnd k =>
    unfold exec execUnpackEscEnd at h
    obtain ⟨S, hd, ht, hu⟩ := row _ _ _ h
    exact .inl ⟨k, _, S, rfl, by simp, hd, ht, hu⟩
  | unpackEscEsc k =>
    unfold exec execUnpackEscEsc at h
    obtain ⟨S, hd, ht, hu⟩ := row _ _ _ h
    exact .inl ⟨k, _, S, rfl, by simp, hd, ht, hu⟩
  | unpackEscBad k c =>
    unfold exec execUnpackEscBad at h
    obtain ⟨S, hd, ht, hu⟩ := row _ _ _ h
    exact .inl ⟨k, _, S, rfl, by simp, hd, ht, hu⟩
  | unpackEsc k =>
    unfold exec execUnpackEsc at h
    obtain ⟨S, hd, ht, hu⟩ := row _ _ _ h
    exact .inl ⟨k, _, S, rfl, by simp, hd, ht, hu⟩
  | unpackEndEmpty k =>
    unfold exec execUnpackEndEmpty at h
    obtain ⟨S, hd, ht, hu⟩ := row _ _ _ h
    exact .inl ⟨k, _, S, rfl, by simp, hd, ht, hu⟩
  | unpackEndFrame k =>
    unfold exec execUnpackEndFrame at h
    obtain ⟨S, hd, ht, hu⟩ := row _ _ _ h
    exact .inl ⟨k, _, S, rfl, by simp, hd, ht, hu⟩
  | unpackEndMalformed k =>
    unfold exec execUnpackEndMalformed at h
    obtain ⟨S, hd, ht, hu⟩ := row _ _ _ h
    exact .inl ⟨k, _, S, rfl, by simp, hd, ht, hu⟩
  | unpackData k c =>
    unfold exec execUnpackData at h
    obtain ⟨S, hd, ht, hu⟩ := row _ _ _ h
    exact .inl ⟨k, _, S, rfl, by simp, hd, ht, hu⟩
  | stuffEnd => cases h; exact .inr (.inr (.inr ⟨_, rfl, rfl, by simp⟩))
  | stuffEsc => cases h; exact .inr (.inr (.inr ⟨_, rfl, rfl, by simp⟩))
  | stuffLiteral b =>
    rcases execStuffLiteral_cases b s with ⟨-, hx⟩ | ⟨-, -, hx⟩ <;> rw [exec, hx] at h <;> cases h
    exact .inr (.inr (.inr ⟨_, rfl, rfl, by simp⟩))
  | tagQuat => cases h; exact .inr (.inr (.inr ⟨_, rfl, rfl, by simp⟩))
  | tagAcc => cases h; exact .inr (.inr (.inr ⟨_, rfl, rfl, by simp⟩))
  | tagGyro => cases h; exact .inr (.inr (.inr ⟨_, rfl, rfl, by simp⟩))
  | tagMag => cases h; exact .inr (.inr (.inr ⟨_, rfl, rfl, by simp⟩))
  | tagColor => cases h; exact .inr (.inr (.inr ⟨_, rfl, rfl, by simp⟩))
  | tagBlink => cases h; exact .inr (.inr (.inr ⟨_, rfl, rfl, by simp⟩))
  | tagIR => cases h; exact .inr (.inr (.inr ⟨_, rfl, rfl, by simp⟩))
  | tagVersion => cases h; exact .inr (.inr (.inr ⟨_, rfl, rfl, by simp⟩))
  | tagId => cases h; exact .inr (.inr (.inr ⟨_, rfl, rfl, by simp⟩))
  | tagInvalid tag =>
    rcases execTagInvalid_cases tag s with ⟨-, hx⟩ | ⟨-, hx⟩ <;> rw [exec, hx] at h <;> cases h
    exact .inr (.inr (.inr ⟨_, rfl, rfl, by simp⟩))

/-- No instruction changes what is issued, or who issued the operation it performs. -/
theorem exec_queue_caller {i : Instr} {s t : State} (h : exec i s = .next t) :
    t.queue = s.queue ∧ t.caller = s.caller := by
  rcases exec_next_cases h with ⟨k, c, S, -, -, -, rfl, -⟩ | ⟨k, -, -, rfl⟩ | ⟨-, -, -, -, -, -, -, -, -, rfl⟩ |
    ⟨r, -, rfl, -⟩ <;> exact ⟨rfl, rfl⟩

/-- A step takes at most the first request from the queue. -/
theorem step_queue {s t : State} (h : step s = .next t) : t.queue = s.queue.tail := by
  rcases step_cases s with ⟨hq, hx⟩ | ⟨_, _, _, _, _, hx⟩ | ⟨r, rest, i, hq, -, hx⟩ <;> rw [hx] at h
  · cases h; simp [hq]
  · cases h
  · simp [(exec_queue_caller h).1, hq]

end Sys2Proof.Machine
end

