-- ==== Sys2Proof/Laws/PerInstr.lean ====
section
/-! SUPPORT. One law per constructor of Instr: the code word an instruction is encoded with is one its row of
spec/opcode_table.json matches, in the row's format. -/

namespace Sys2Proof.Laws.TableRow

/-- The format, match and mask of the row a constructor stands for, copied from spec/opcode_table.json. -/
def row : Instr → Format × Nat × Nat
  | .layout _ => (.command, 0b00, 0b11)
  | .pack _ _ _ _ => (.command, 0b01, 0b11)
  | .unpack _ _ => (.command, 0b10, 0b11)
  | .sessionInit _ => (.command, 0b11, 0b11)
  | .unpackEscEnd _ => (.wireByte, 0x1DC, 0x1FF)
  | .unpackEscEsc _ => (.wireByte, 0x1DD, 0x1FF)
  | .unpackEscBad _ _ => (.wireByte, 0x100, 0x100)
  | .unpackEsc _ => (.wireByte, 0x0DB, 0x1FF)
  | .unpackEndEmpty _ => (.wireByte, 0x0C0, 0x1FF)
  | .unpackEndFrame _ => (.wireByte, 0x0C0, 0x1FF)
  | .unpackEndMalformed _ => (.wireByte, 0x0C0, 0x1FF)
  | .unpackData _ _ => (.wireByte, 0x000, 0x100)
  | .stuffEnd => (.stuff, 0xC0, 0xFF)
  | .stuffEsc => (.stuff, 0xDB, 0xFF)
  | .stuffLiteral _ => (.stuff, 0x00, 0x00)
  | .tagQuat => (.typeTag, 0x00, 0xFF)
  | .tagAcc => (.typeTag, 0x01, 0xFF)
  | .tagGyro => (.typeTag, 0x02, 0xFF)
  | .tagMag => (.typeTag, 0x03, 0xFF)
  | .tagColor => (.typeTag, 0x04, 0xFF)
  | .tagBlink => (.typeTag, 0x05, 0xFF)
  | .tagIR => (.typeTag, 0x06, 0xFF)
  | .tagVersion => (.typeTag, 0x07, 0xFF)
  | .tagId => (.typeTag, 0x08, 0xFF)
  | .tagInvalid _ => (.typeTag, 0x00, 0x00)

/-- The code word at the head of an instruction's bytes: the 9-bit key of a wire_byte row lies in two bytes, low byte
first; every other code word is one byte. -/
def codeWord : Format → List Byte → Nat
  | .wireByte, c :: esc :: _ => c.toNat + 256 * esc.toNat
  | .command, b :: _ => b.toNat
  | .stuff, b :: _ => b.toNat
  | .typeTag, b :: _ => b.toNat
  | _, _ => 0

/-- The instruction's bytes are of its row's format, and their code word is one the row matches. -/
def Statement (i : Instr) : Prop :=
  i.format = (row i).1 ∧ codeWord i.format (encode i) &&& (row i).2.2 = (row i).2.1

theorem layout (t : Byte) : Statement (.layout t) := by
  refine ⟨rfl, ?_⟩
  show (0#8 : Byte).toNat &&& 0b11 = 0b00
  decide

theorem pack (t : Byte) (data : Payload) (cap : Nat) (out : Nat) : Statement (.pack t data cap out) := by
  refine ⟨rfl, ?_⟩
  show (1#8 : Byte).toNat &&& 0b11 = 0b01
  decide

theorem unpack (k : Nat) (c : Byte) : Statement (.unpack k c) := by
  refine ⟨rfl, ?_⟩
  show (2#8 : Byte).toNat &&& 0b11 = 0b10
  decide

theorem sessionInit (k : Nat) : Statement (.sessionInit k) := by
  refine ⟨rfl, ?_⟩
  show (3#8 : Byte).toNat &&& 0b11 = 0b11
  decide

theorem unpackEscEnd (k : Nat) : Statement (.unpackEscEnd k) := by
  refine ⟨rfl, ?_⟩
  show (0xDC#8 : Byte).toNat + 256 * (1#8 : Byte).toNat &&& 0x1FF = 0x1DC
  decide

theorem unpackEscEsc (k : Nat) : Statement (.unpackEscEsc k) := by
  refine ⟨rfl, ?_⟩
  show (0xDD#8 : Byte).toNat + 256 * (1#8 : Byte).toNat &&& 0x1FF = 0x1DD
  decide

theorem unpackEscBad (k : Nat) (c : Byte) : Statement (.unpackEscBad k c) := by
  have key : ∀ c : Byte, (c.toNat + 256 * 1) &&& 0x100 = 0x100 := by decide
  exact ⟨rfl, key c⟩

theorem unpackEsc (k : Nat) : Statement (.unpackEsc k) := by
  refine ⟨rfl, ?_⟩
  show (0xDB#8 : Byte).toNat + 256 * (0#8 : Byte).toNat &&& 0x1FF = 0x0DB
  decide

theorem unpackEndEmpty (k : Nat) : Statement (.unpackEndEmpty k) := by
  refine ⟨rfl, ?_⟩
  show (0xC0#8 : Byte).toNat + 256 * (0#8 : Byte).toNat &&& 0x1FF = 0x0C0
  decide

theorem unpackEndFrame (k : Nat) : Statement (.unpackEndFrame k) := by
  refine ⟨rfl, ?_⟩
  show (0xC0#8 : Byte).toNat + 256 * (0#8 : Byte).toNat &&& 0x1FF = 0x0C0
  decide

theorem unpackEndMalformed (k : Nat) : Statement (.unpackEndMalformed k) := by
  refine ⟨rfl, ?_⟩
  show (0xC0#8 : Byte).toNat + 256 * (0#8 : Byte).toNat &&& 0x1FF = 0x0C0
  decide

theorem unpackData (k : Nat) (c : Byte) : Statement (.unpackData k c) := by
  have key : ∀ c : Byte, (c.toNat + 256 * 0) &&& 0x100 = 0x000 := by decide
  exact ⟨rfl, key c⟩

theorem stuffEnd : Statement .stuffEnd := ⟨rfl, by decide⟩

theorem stuffEsc : Statement .stuffEsc := ⟨rfl, by decide⟩

theorem stuffLiteral (b : Byte) : Statement (.stuffLiteral b) := ⟨rfl, Nat.and_zero _⟩

theorem tagQuat : Statement .tagQuat := ⟨rfl, by decide⟩

theorem tagAcc : Statement .tagAcc := ⟨rfl, by decide⟩

theorem tagGyro : Statement .tagGyro := ⟨rfl, by decide⟩

theorem tagMag : Statement .tagMag := ⟨rfl, by decide⟩

theorem tagColor : Statement .tagColor := ⟨rfl, by decide⟩

theorem tagBlink : Statement .tagBlink := ⟨rfl, by decide⟩

theorem tagIR : Statement .tagIR := ⟨rfl, by decide⟩

theorem tagVersion : Statement .tagVersion := ⟨rfl, by decide⟩

theorem tagId : Statement .tagId := ⟨rfl, by decide⟩

theorem tagInvalid (t : Byte) : Statement (.tagInvalid t) := ⟨rfl, Nat.and_zero _⟩

end Sys2Proof.Laws.TableRow
end

