-- ==== Sys2Proof/Laws/Streams.lean ====
section
/-! SUPPORT. Feeding byte lists to a session, slices of byte lists, and runs of steps. -/

namespace Sys2Proof

theorem length_slice (p : List Byte) (i j : Nat) (h : j ≤ p.length) : (slice p i j).length = j - i := by
  simp [slice]; omega

/-- Neighbouring slices join. -/
theorem slice_append_slice (p : List Byte) (i j k : Nat) (h1 : i ≤ j) (h2 : j ≤ k) :
    slice p i j ++ slice p j k = slice p i k := by
  simp only [slice]
  have e : List.drop j p = List.drop (j - i) (List.drop i p) := by
    rw [List.drop_drop]; congr 1; omega
  rw [e, ← List.take_add]; congr 1; omega

theorem slice_zero_length (p : List Byte) (n : Nat) (h : p.length = n) : slice p 0 n = p := by
  simp [slice, ← h]

/-- SER_BE after DES_BE on a slice of w bytes is that slice. -/
theorem serBE_desBE_slice (n w i : Nat) (p : List Byte) (hn : n = 8 * w) (h : i + w ≤ p.length) :
    serBE (desBE n (slice p i (i + w))) w = slice p i (i + w) := by
  have hl : (slice p i (i + w)).length = w := by rw [length_slice _ _ _ h]; omega
  have := serBE_desBE n (slice p i (i + w)) (by rw [hl, hn])
  rwa [hl] at this

end Sys2Proof

namespace Sys2Proof.Machine

/-- Feeding two lists one after the other. -/
theorem feed_append {k : Nat} {xs ys : List Byte} {s t u : State} {rs qs : List Result}
    (h1 : feed k xs s = some (t, rs)) (h2 : feed k ys t = some (u, qs)) :
    feed k (xs ++ ys) s = some (u, rs ++ qs) := by
  induction xs generalizing s rs with
  | nil =>
    simp only [feed, Option.some.injEq, Prod.mk.injEq] at h1
    obtain ⟨rfl, rfl⟩ := h1
    simpa using h2
  | cons c cs ih =>
    simp only [feed, List.cons_append] at h1 ⊢
    split at h1
    · split at h1
      · rename_i hr hf
        simp only [Option.some.injEq, Prod.mk.injEq] at h1
        obtain ⟨rfl, rfl⟩ := h1
        simp [hr, ih hf]
      · cases h1
    · cases h1

/-- Feeding one byte is one UNPACK. -/
theorem feed_singleton {k : Nat} {s : State} {S : Session} (c : Byte) (h : s.drives k S) :
    feed k [c] s = some (s.after k (S.unpack c).1 (S.unpack c).2, [(S.unpack c).2]) := by
  simp [feed, exec_unpack_of_drives c h]

/-- Of two replacements of a session, the later one stands. -/
theorem State.after_after (s : State) (k : Nat) (S S' : Session) (r r' : Result) :
    (s.after k S r).after k S' r' = s.after k S' r' := by
  simp [State.after]

@[simp] theorem State.run_zero (s : State) : s.run 0 = some s := rfl

/-- A run of n + 1 steps is a step that completes and a run of n. -/
theorem State.run_succ_iff (n : Nat) (s t : State) :
    s.run (n + 1) = some t ↔ ∃ u, step s = .next u ∧ u.run n = some t := by
  simp only [State.run]
  constructor
  · intro h
    split at h
    · exact ⟨_, ‹_›, h⟩
    · cases h
  · rintro ⟨u, hu, ht⟩
    rw [hu]; exact ht

end Sys2Proof.Machine
end

