-- ==== Sys2Proof/Machine/Text.lean ====
section
/-! DEFINITION. The textual syntax of the spec's test programs (30_encoding.md R81, 92_eei_decisions.md D20): how an
operation is written, and what the list form of UNPACK stands for. It has no meaning beyond the operations it names. -/

namespace Sys2Proof

/-- The last `digits` hexadecimal digits of a number, capitals. -/
def hexText : Nat → Nat → String
  | 0, _ => ""
  | d + 1, n => hexText d (n / 16) ++ String.singleton (Nat.digitChar (n % 16)).toUpper

/-- A bit pattern as 0xNN, with as many digits as it has. -/
def bitsText {n : Nat} (v : BitVec n) : String := "0x" ++ hexText (n / 4) v.toNat

/-- A payload: Quat(w,x,y,z), Vec3(x,y,z), Rgb(r,g,b), Word(v) or Empty. -/
def Payload.text : Payload → String
  | .quat4 w x y z =>
    "Quat(" ++ bitsText w ++ "," ++ bitsText x ++ "," ++ bitsText y ++ "," ++ bitsText z ++ ")"
  | .vec3 x y z => "Vec3(" ++ bitsText x ++ "," ++ bitsText y ++ "," ++ bitsText z ++ ")"
  | .rgb r g b => "Rgb(" ++ bitsText r ++ "," ++ bitsText g ++ "," ++ bitsText b ++ ")"
  | .word v => "Word(" ++ bitsText v ++ ")"
  | .empty => "Empty"

/-- The line of a command, which does not name OUT; the classification rows have no line. -/
def Instr.text (i : Instr) : Option String :=
  match i with
  | .layout t => some ("LAYOUT  t=" ++ bitsText t)
  | .pack t data cap _ => some ("PACK    t=" ++ bitsText t ++ ", " ++ data.text ++ ", cap=" ++ toString cap)
  | .unpack k c => some ("UNPACK  s" ++ toString k ++ ", " ++ bitsText c)
  | .sessionInit k => some ("SESSION_INIT s" ++ toString k)
  | .unpackEscEnd _ | .unpackEscEsc _ | .unpackEscBad _ _ | .unpackEsc _ => none
  | .unpackEndEmpty _ | .unpackEndFrame _ | .unpackEndMalformed _ | .unpackData _ _ => none
  | .stuffEnd | .stuffEsc | .stuffLiteral _ => none
  | .tagQuat | .tagAcc | .tagGyro | .tagMag | .tagColor | .tagBlink | .tagIR | .tagVersion | .tagId => none
  | .tagInvalid _ => none

/-- The list form of UNPACK: one UNPACK per listed byte, in order. -/
def unpackList (k : Nat) (cs : List Byte) : List Instr := cs.map (Instr.unpack k)

end Sys2Proof
end

