-- ==== Sys2Proof/Tests/Slice0.lean ====
section
/-! SUPPORT. Tests of the model. Expected results come from spec/: the encodings of 30_encoding.md and
spec/opcode_table.json, and the vectors P, Y, U and I of 95_test_vectors.md, each named in its comment. The witness
theorems show, for each statement with hypotheses, a state and operands that meet them. -/

namespace Sys2Proof.Tests

open Sys2Proof Sys2Proof.Machine

/-! ## Helpers -/

/-- Two sessions, s0 as given and s1 not created; nothing else. Caller 0 issues the operation. -/
def withSession (esc : Bool) (buf : List Byte) : State :=
  { State.init 2 .capacityFirst with sessions := [some ⟨esc, buf, 0⟩, none] }

/-- No session created, for either PACK_ERR_PRIORITY. -/
def bare (p : PackErrPriority) : State := State.init 2 p

/-- The result of a step that completes. -/
def resultOf : Answer → Option Result
  | .next s => s.result
  | _ => none

/-- esc and buf of session k after a step that completes. -/
def sessionOf (k : Nat) : Answer → Option (Bool × List Byte)
  | .next s =>
    match s.sessions[k]? with
    | some (some S) => some (S.esc, S.buf)
    | _ => none
  | _ => none

/-- OUT[0..n), at address `out`, after a step that completes. -/
def outputOf (out n : Nat) : Answer → List (Option Byte)
  | .next s => s.output out n
  | _ => []

/-- The refusal of a step that is refused. -/
def refusalOf : Answer → Option Refusal
  | .refused r => some r
  | _ => none

/-- The instruction a request's bytes decode to. -/
def decodes (f : Format) (bs : List Byte) : Option Instr :=
  match decode f bs with
  | .ok i => some i
  | .error _ => none

/-- Why a request's bytes are refused. -/
def rejects (f : Format) (bs : List Byte) : Option DecodeError :=
  match decode f bs with
  | .ok _ => none
  | .error e => some e

/-- Seventeen bytes 0x41: a full buffer (U14 to U18). -/
def full : List Byte := List.replicate 17 0x41#8

/-! ## WellFormed refuses an ill-formed term, for each of its checks -/

/-- Color takes Rgb, not Word (40_packet_model.md R112). -/
theorem test_wellFormed_refuses_mismatched_pack : (Instr.pack 0x04#8 (.word 0#32) 34 0).wellFormed = false := by decide

theorem test_wellFormed_refuses_escBad_of_DC : (Instr.unpackEscBad 0 0xDC#8).wellFormed = false := by decide

theorem test_wellFormed_refuses_escBad_of_DD : (Instr.unpackEscBad 0 0xDD#8).wellFormed = false := by decide

theorem test_wellFormed_refuses_data_of_C0 : (Instr.unpackData 0 0xC0#8).wellFormed = false := by decide

theorem test_wellFormed_refuses_data_of_DB : (Instr.unpackData 0 0xDB#8).wellFormed = false := by decide

theorem test_wellFormed_refuses_literal_C0 : (Instr.stuffLiteral 0xC0#8).wellFormed = false := by decide

theorem test_wellFormed_refuses_literal_DB : (Instr.stuffLiteral 0xDB#8).wellFormed = false := by decide

theorem test_wellFormed_refuses_valid_tag_as_invalid : (Instr.tagInvalid 0x08#8).wellFormed = false := by decide

/-- An invalid tag admits any data (40_packet_model.md R112). -/
theorem test_wellFormed_admits_any_data_with_invalid_tag :
    (Instr.pack 0x09#8 (.word 0#32) 34 0).wellFormed = true := by decide

/-! ## Decoding, from the code words of 30_encoding.md R79, R60, R61 and R71 -/

/-- op = 0b00, t = 0x09 (L3-4). -/
theorem test_decode_layout : decodes .command [0b00#8, 0x09#8] = some (.layout 0x09#8) := by decide

/-- op = 0b01, t = 0x08, Word(0x01020304), cap = 34, OUT at 256 (P8): the word big-endian, 256 in base 128. -/
theorem test_decode_pack :
    decodes .command [0b01#8, 0x08#8, 3#8, 0x01#8, 0x02#8, 0x03#8, 0x04#8, 34#8, 0x80#8, 0x02#8] =
      some (.pack 0x08#8 (.word 0x01020304#32) 34 256) := by decide

/-- op = 0b10, k = 0, c = 0xDB (L3-1). -/
theorem test_decode_unpack : decodes .command [0b10#8, 0#8, 0xDB#8] = some (.unpack 0 0xDB#8) := by decide

/-- op = 0b11, k = 1 (L3-2). -/
theorem test_decode_sessionInit : decodes .command [0b11#8, 1#8] = some (.sessionInit 1) := by decide

/-- esc = 1, c = 1101 1100: the key 1 1101 1100, low byte first. -/
theorem test_decode_unpackEscEnd : decodes .wireByte [0b11011100#8, 1#8, 0#8] = some (.unpackEscEnd 0) := by decide

/-- esc = 1, c = 1101 1101. -/
theorem test_decode_unpackEscEsc : decodes .wireByte [0b11011101#8, 1#8, 0#8] = some (.unpackEscEsc 0) := by decide

/-- esc = 1, c = 0x41 (U6). -/
theorem test_decode_unpackEscBad : decodes .wireByte [0x41#8, 1#8, 0#8] = some (.unpackEscBad 0 0x41#8) := by decide

/-- esc = 0, c = 1101 1011. -/
theorem test_decode_unpackEsc : decodes .wireByte [0b11011011#8, 0#8, 0#8] = some (.unpackEsc 0) := by decide

/-- esc = 0, c = 1100 0000, the first row of that key. -/
theorem test_decode_unpackEndEmpty :
    decodes .wireByte [0b11000000#8, 0#8, 0#8, 0#8] = some (.unpackEndEmpty 0) := by decide

/-- esc = 0, c = 1100 0000, the second row of that key. -/
theorem test_decode_unpackEndFrame :
    decodes .wireByte [0b11000000#8, 0#8, 0#8, 1#8] = some (.unpackEndFrame 0) := by decide

/-- esc = 0, c = 1100 0000, the third row of that key. -/
theorem test_decode_unpackEndMalformed :
    decodes .wireByte [0b11000000#8, 0#8, 0#8, 2#8] = some (.unpackEndMalformed 0) := by decide

/-- esc = 0, c = 0xDC: with esc = 0 it is data (30_encoding.md R76). -/
theorem test_decode_unpackData : decodes .wireByte [0xDC#8, 0#8, 0#8] = some (.unpackData 0 0xDC#8) := by decide

/-- 1100 0000. -/
theorem test_decode_stuffEnd : decodes .stuff [0b11000000#8] = some .stuffEnd := by decide

/-- 1101 1011. -/
theorem test_decode_stuffEsc : decodes .stuff [0b11011011#8] = some .stuffEsc := by decide

/-- 0xDC is not escaped (30_encoding.md R71). -/
theorem test_decode_stuffLiteral : decodes .stuff [0xDC#8] = some (.stuffLiteral 0xDC#8) := by decide

theorem test_decode_tagQuat : decodes .typeTag [0b00000000#8] = some .tagQuat := by decide

theorem test_decode_tagAcc : decodes .typeTag [0b00000001#8] = some .tagAcc := by decide

theorem test_decode_tagGyro : decodes .typeTag [0b00000010#8] = some .tagGyro := by decide

theorem test_decode_tagMag : decodes .typeTag [0b00000011#8] = some .tagMag := by decide

theorem test_decode_tagColor : decodes .typeTag [0b00000100#8] = some .tagColor := by decide

theorem test_decode_tagBlink : decodes .typeTag [0b00000101#8] = some .tagBlink := by decide

theorem test_decode_tagIR : decodes .typeTag [0b00000110#8] = some .tagIR := by decide

theorem test_decode_tagVersion : decodes .typeTag [0b00000111#8] = some .tagVersion := by decide

theorem test_decode_tagId : decodes .typeTag [0b00001000#8] = some .tagId := by decide

/-- 0x09 is the first invalid tag (30_encoding.md R62). -/
theorem test_decode_tagInvalid : decodes .typeTag [0b00001001#8] = some (.tagInvalid 0x09#8) := by decide

/-- Each rejection of the decoder. -/
theorem test_decode_rejects :
    rejects .command [] = some .truncated ∧
    rejects .command [4#8] = some .unknownCommand ∧
    rejects .command [1#8, 0x05#8, 5#8, 34#8, 0#8] = some .unknownPayload ∧
    rejects .wireByte [0xDC#8, 2#8, 0#8] = some .unknownKey ∧
    rejects .wireByte [0xC0#8, 0#8, 0#8, 3#8] = some .unknownEndRow ∧
    rejects .command [1#8, 0x08#8, 3#8, 0x01#8, 0x02#8] = some .truncated := by decide

/-! ## LAYOUT -/

/-- Y4. -/
theorem test_layout_color :
    resultOf (exec (.layout 0x04#8) (bare .typeFirst)) = some (.layout [(0, 1), (1, 1), (2, 1)]) := by decide

/-- Y9. -/
theorem test_layout_invalid :
    resultOf (exec (.layout 0x09#8) (bare .typeFirst)) = some (.error .invalidType) := by decide

/-! ## PACK -/

/-- P5: an escape inside a 16-bit field. -/
theorem test_pack_gyro_escapes :
    outputOf 100 10 (exec (.pack 0x02#8 (.vec3 0xC0DB#16 0x8000#16 0x0000#16) 34 100) (bare .capacityFirst)) =
      [0x02#8, 0xDB#8, 0xDC#8, 0xDB#8, 0xDD#8, 0x80#8, 0x00#8, 0x00#8, 0x00#8, 0xC0#8].map some := by decide

/-- P16: both errors, for both values of PACK_ERR_PRIORITY. -/
theorem test_pack_error_priority :
    resultOf (exec (.pack 0x09#8 .empty 10 0) (bare .capacityFirst)) = some (.error .bufferTooSmall) ∧
    resultOf (exec (.pack 0x09#8 .empty 10 0) (bare .typeFirst)) = some (.error .invalidType) := by decide

/-! ## UNPACK and SESSION_INIT -/

/-- U17: full buffer, bad escape: FramingError, not Overflow. -/
theorem test_unpack_bad_escape_on_full_buffer :
    resultOf (exec (.unpack 0 0x41#8) (withSession true full)) = some (.error .framingError) ∧
    sessionOf 0 (exec (.unpack 0 0x41#8) (withSession true full)) = some (false, []) := by decide

/-- U30, its last byte: the fields are big-endian. -/
theorem test_unpack_delivers_acc :
    resultOf (exec (.unpack 0 0xC0#8)
      (withSession false [0x01#8, 0x00#8, 0x01#8, 0xFF#8, 0xFF#8, 0x7F#8, 0xFF#8])) =
      some (.packetReady ⟨.acc, .vec3 0x0001#16 0xFFFF#16 0x7FFF#16⟩) := by decide

/-- I5 and I1: SESSION_INIT of a full session in EscapePending leaves it Idle, and one not yet created becomes Idle. -/
theorem test_sessionInit_discards_and_creates :
    sessionOf 0 (exec (.sessionInit 0) (withSession true full)) = some (false, []) ∧
    resultOf (exec (.sessionInit 0) (withSession true full)) = some .unit ∧
    sessionOf 1 (exec (.sessionInit 1) (withSession true full)) = some (false, []) := by decide

/-- 20_memory.md R55: a second caller's SESSION_INIT of a driven session is refused. -/
theorem test_sessionInit_second_caller :
    refusalOf (exec (.sessionInit 0) { withSession true full with caller := 1 }) = some .sharedSession := by decide

/-! ## The wire_byte rows -/

/-- U4, its third byte. -/
theorem test_unpackEscEnd : sessionOf 0 (exec (.unpackEscEnd 0) (withSession true [0x04#8])) =
    some (false, [0x04#8, 0xC0#8]) := by decide

/-- U16: the escaped literal is the 18th byte. -/
theorem test_unpackEscEnd_overflow :
    resultOf (exec (.unpackEscEnd 0) (withSession true full)) = some (.error .overflow) := by decide

/-- U4, its fifth byte. -/
theorem test_unpackEscEsc : sessionOf 0 (exec (.unpackEscEsc 0) (withSession true [0x04#8, 0xC0#8])) =
    some (false, [0x04#8, 0xC0#8, 0xDB#8]) := by decide

/-- U7: ESC then END is a framing error, not a frame end. -/
theorem test_unpackEscBad_end :
    resultOf (exec (.unpackEscBad 0 0xC0#8) (withSession true [0x01#8])) = some (.error .framingError) := by decide

/-- U8: so is ESC ESC. -/
theorem test_unpackEscBad_esc :
    sessionOf 0 (exec (.unpackEscBad 0 0xDB#8) (withSession true [])) = some (false, []) := by decide

/-- U31: ESC on a full buffer. -/
theorem test_unpackEsc_on_full_buffer :
    resultOf (exec (.unpackEsc 0) (withSession false full)) = some .incomplete ∧
    sessionOf 0 (exec (.unpackEsc 0) (withSession false full)) = some (true, full) := by decide

/-- U1. -/
theorem test_unpackEndEmpty :
    resultOf (exec (.unpackEndEmpty 0) (withSession false [])) = some .incomplete := by decide

/-- The row's condition idx = 0 does not hold. -/
theorem test_unpackEndEmpty_not_selected :
    refusalOf (exec (.unpackEndEmpty 0) (withSession false [0x05#8])) = some .rowNotSelected := by decide

/-- U13, its last byte. -/
theorem test_unpackEndFrame :
    resultOf (exec (.unpackEndFrame 0) (withSession false [0x07#8, 0x01#8, 0x02#8, 0x03#8, 0x04#8])) =
      some (.packetReady ⟨.version, .word 0x01020304#32⟩) := by decide

/-- U12: Blink with a payload byte. -/
theorem test_unpackEndMalformed_length :
    resultOf (exec (.unpackEndMalformed 0) (withSession false [0x05#8, 0x00#8])) =
      some (.error .malformedPacket) := by decide

/-- U11: an invalid tag gives MalformedPacket, not InvalidType. -/
theorem test_unpackEndMalformed_tag :
    resultOf (exec (.unpackEndMalformed 0) (withSession false [0x09#8])) = some (.error .malformedPacket) := by decide

/-- U14, its 17th byte. -/
theorem test_unpackData_fills :
    sessionOf 0 (exec (.unpackData 0 0x41#8) (withSession false (List.replicate 16 0x41#8))) =
      some (false, full) := by decide

/-- U14, its 18th byte: dropped. -/
theorem test_unpackData_overflow :
    resultOf (exec (.unpackData 0 0x41#8) (withSession false full)) = some (.error .overflow) ∧
    sessionOf 0 (exec (.unpackData 0 0x41#8) (withSession false full)) = some (false, []) := by decide

/-! ## The stuff and type_tag rows (30_encoding.md R71, R61, R62) -/

theorem test_stuffEnd : resultOf (exec .stuffEnd (bare .typeFirst)) = some (.stuffed [0xDB#8, 0xDC#8]) := by decide

theorem test_stuffEsc : resultOf (exec .stuffEsc (bare .typeFirst)) = some (.stuffed [0xDB#8, 0xDD#8]) := by decide

/-- P18: 0xDD is not escaped. -/
theorem test_stuffLiteral :
    resultOf (exec (.stuffLiteral 0xDD#8) (bare .typeFirst)) = some (.stuffed [0xDD#8]) := by decide

theorem test_tagQuat : resultOf (exec .tagQuat (bare .typeFirst)) = some (.tagged .quat4 16) := by decide

theorem test_tagAcc : resultOf (exec .tagAcc (bare .typeFirst)) = some (.tagged .vec3 6) := by decide

theorem test_tagGyro : resultOf (exec .tagGyro (bare .typeFirst)) = some (.tagged .vec3 6) := by decide

theorem test_tagMag : resultOf (exec .tagMag (bare .typeFirst)) = some (.tagged .vec3 6) := by decide

theorem test_tagColor : resultOf (exec .tagColor (bare .typeFirst)) = some (.tagged .rgb 3) := by decide

theorem test_tagBlink : resultOf (exec .tagBlink (bare .typeFirst)) = some (.tagged .empty 0) := by decide

theorem test_tagIR : resultOf (exec .tagIR (bare .typeFirst)) = some (.tagged .empty 0) := by decide

theorem test_tagVersion : resultOf (exec .tagVersion (bare .typeFirst)) = some (.tagged .word 4) := by decide

theorem test_tagId : resultOf (exec .tagId (bare .typeFirst)) = some (.tagged .word 4) := by decide

theorem test_tagInvalid : resultOf (exec (.tagInvalid 0xFF#8) (bare .typeFirst)) = some .untagged := by decide

/-! ## The textual syntax (30_encoding.md R81; the lines of 95_test_vectors.md section 6) -/

theorem test_text_layout : (Instr.layout 0x09#8).text = some "LAYOUT  t=0x09" := by decide

theorem test_text_pack :
    (Instr.pack 0x04#8 (.rgb 0xC0#8 0xDB#8 0x01#8) 34 0).text =
      some "PACK    t=0x04, Rgb(0xC0,0xDB,0x01), cap=34" := by decide

theorem test_text_unpack : (Instr.unpack 0 0x41#8).text = some "UNPACK  s0, 0x41" := by decide

theorem test_text_sessionInit : (Instr.sessionInit 1).text = some "SESSION_INIT s1" := by decide

theorem test_text_unpackList : unpackList 1 [0x04#8, 0x01#8] = [.unpack 1 0x04#8, .unpack 1 0x01#8] := by decide

/-! ## Reset and steps -/

/-- After reset no session exists (95_test_vectors.md section 6), and an UNPACK is refused (R243). -/
theorem test_reset_has_no_session : State.reset.sessions = [none, none] := by decide

theorem test_reset_unpack_refused :
    refusalOf (step (State.reset.withFetchWord 8 0b10)) = some .uninitialisedSession := by decide

/-- The bare words of the four commands run as the first instruction, but for UNPACK. -/
theorem test_reset_layout_runs :
    resultOf (step (State.reset.withFetchWord 8 0b00)) =
      some (.layout [(0, 4), (4, 4), (8, 4), (12, 4)]) := by decide

theorem test_reset_sessionInit_runs :
    sessionOf 0 (step (State.reset.withFetchWord 8 0b11)) = some (false, []) := by decide

/-! ## Witnesses: the hypotheses of each statement are met -/

/-- A request for LAYOUT(0x04) by caller 3. -/
def layoutRequest : Request := ⟨3, .command, [0#8, 0x04#8]⟩

/-- s with requests issued. -/
def issue (s : State) (rs : List Request) : State := { s with queue := rs }

theorem witness_ResetIsLegal : 1 ≤ 1 := by decide

/-- A full buffer, a byte of OUT, a last result and a request: legal, and the step completes. -/
theorem witness_StepKeepsStateLegal :
    let s : State := { withSession true full with
      mem := [(4, 0xC0#8), (9, 0x00#8)], result := some (.packed 34), queue := [layoutRequest] }
    s.legal ∧ step s = .next { s with
      queue := [], caller := 3, result := some (.layout [(0, 1), (1, 1), (2, 1)]) } := ⟨by decide, rfl⟩

theorem witness_StepPerformsDecodedRequest :
    (issue (bare .typeFirst) [layoutRequest]).queue = layoutRequest :: [] ∧
    decode layoutRequest.format layoutRequest.bytes = .ok (.layout 0x04#8) := ⟨rfl, rfl⟩

theorem witness_StepIdles : (bare .typeFirst).queue = [] := rfl

theorem witness_StepRefusesUndecodable :
    (issue (bare .typeFirst) [⟨0, .command, [4#8]⟩]).queue = ⟨0, .command, [4#8]⟩ :: [] ∧
    decode .command [4#8] = .error .unknownCommand := ⟨rfl, rfl⟩

theorem witness_StepKeepsParametersAndSessions :
    step (issue (withSession true full) [layoutRequest]) = .next { withSession true full with
      caller := 3, result := some (.layout [(0, 1), (1, 1), (2, 1)]) } ∧
    (withSession true full).sessions[0]? = some (some ⟨true, full, 0⟩) := ⟨rfl, by decide⟩

/-- The largest operands of one byte, a session index of two base-128 digits, and an invalid tag with data. -/
theorem witness_DecodeInvertsEncode :
    (Instr.unpackData 128 0xFF#8).wellFormed = true ∧ (Instr.pack 0x09#8 (.word 5#32) 33 0).wellFormed = true ∧
    (Instr.pack 0x08#8 (.word 5#32) 33 0).wellFormed = true ∧ (Instr.tagInvalid 0x09#8).wellFormed = true := by decide

/-- A well-formed row, and a PACK whose payload does not match. -/
theorem witness_DecodedRowsAreWellFormed :
    decode .stuff [0xFF#8] = .ok (.stuffLiteral 0xFF#8) ∧
    decode .command [1#8, 0x05#8, 2#8, 1#8, 2#8, 3#8, 34#8, 0#8] =
      .ok (.pack 0x05#8 (.rgb 1#8 2#8 3#8) 34 0) := ⟨rfl, rfl⟩

theorem witness_IllFormedNeverCompletes : (Instr.tagInvalid 0x08#8).wellFormed = false := by decide

theorem witness_LayoutAnswersTableOrInvalidType : 8 < (0x09#8 : Byte).toNat ∧ 8 < (0xFF#8 : Byte).toNat := by decide

theorem witness_LayoutFieldsTileThePayload :
    exec (.layout 0x08#8) (bare .typeFirst) = .next { bare .typeFirst with result := some (.layout [(0, 4)]) } := rfl

/-- cap = 34 with a frame of 34 bytes, and with one of 2 bytes (P10, P1); the first and the last tag. -/
theorem witness_PackWritesFrame :
    PacketType.ofTag 0x00#8 = some .quat ∧
    (Payload.quat4 0xC0C0C0C0#32 0xC0C0C0C0#32 0xC0C0C0C0#32 0xC0C0C0C0#32).kind = PacketType.quat.kind ∧
    PacketType.ofTag 0x05#8 = some .blink ∧ Payload.empty.kind = PacketType.blink.kind ∧
    PacketType.ofTag 0x08#8 = some .id ∧ (Payload.word 1#32).kind = PacketType.id.kind ∧ 34 ≤ 34 := by decide

/-- Each clause: P14; P12; P16 for both values. -/
theorem witness_PackErrorsFollowPriority :
    ((∃ ty, PacketType.ofTag 0x05#8 = some ty ∧ Payload.empty.kind = ty.kind) ∧ 33 < 34) ∧
    (8 < (0x09#8 : Byte).toNat ∧ 34 ≤ 34) ∧
    (33 < 34 ∧ (bare .capacityFirst).priority = .capacityFirst ∧ (bare .typeFirst).priority = .typeFirst) :=
  ⟨⟨⟨.blink, by decide, by decide⟩, by decide⟩, by decide, by decide⟩

theorem witness_PackRefusesMismatchedPayload :
    (∃ ty, PacketType.ofTag 0x08#8 = some ty ∧ Payload.empty.kind ≠ ty.kind) ∧
    exec (.pack 0x08#8 .empty 34 0) (bare .typeFirst) = .refused .payloadMismatch ∧ 8 < (0x09#8 : Byte).toNat :=
  ⟨⟨.id, by decide, by decide⟩, rfl, by decide⟩

/-- P10: n = 34, and P1: n = 2. -/
theorem witness_PackLengthIsBounded :
    (∃ u, exec (.pack 0x00#8 (.quat4 0xC0C0C0C0#32 0xC0C0C0C0#32 0xC0C0C0C0#32 0xC0C0C0C0#32) 34 0)
      (bare .typeFirst) = .next u ∧ u.result = some (.packed 34)) ∧
    ∃ u, exec (.pack 0x05#8 .empty 34 0) (bare .typeFirst) = .next u ∧ u.result = some (.packed 2) :=
  ⟨⟨_, rfl, by decide⟩, ⟨_, rfl, by decide⟩⟩

/-- P3: the frame holds two ESC bytes, at OUT[1] and OUT[3]. -/
theorem witness_PackedFrameIsWellDelimited :
    ∃ u, exec (.pack 0x04#8 (.rgb 0xC0#8 0xDB#8 0x01#8) 34 7) (bare .typeFirst) = .next u ∧
      u.result = some (.packed 7) ∧ u.readByte (7 + 1) = some 0xDB#8 ∧ u.readByte (7 + 3) = some 0xDB#8 :=
  ⟨_, rfl, by decide, by decide, by decide⟩

theorem witness_DesAndSerAreInverse :
    (Payload.vec3 1#16 2#16 3#16).kind = PacketType.mag.kind ∧
    [1#8, 2#8, 3#8, 4#8, 5#8, 6#8].length = PacketType.gyro.psize := by decide

/-- P1 into OUT at 0; the second PACK's OUT is free. -/
theorem witness_PackDependsOnOperandsAndPriority :
    (bare .typeFirst).priority = ({ withSession true full with priority := .typeFirst } : State).priority ∧
    ∃ u, exec (.pack 0x05#8 .empty 34 0) (bare .typeFirst) = .next u ∧ u.result = some (.packed 2) :=
  ⟨rfl, _, rfl, by decide⟩

/-- OUT of the second PACK begins inside the frame of the first (P3 at 0, then P1 at 3). -/
theorem witness_LaterPackWinsOverlap :
    ∃ u v, exec (.pack 0x04#8 (.rgb 0xC0#8 0xDB#8 0x01#8) 34 0) (bare .typeFirst) = .next u ∧
      u.result = some (.packed 7) ∧ exec (.pack 0x05#8 .empty 34 3) u = .next v ∧ v.result = some (.packed 2) :=
  ⟨_, _, rfl, by decide, rfl, by decide⟩

/-- EscapePending on a session with room (idx 16) and on a full one (idx 17). -/
theorem witness_UnpackTranslatesEscapes :
    (withSession true (List.replicate 16 0x41#8)).drives 0 ⟨true, List.replicate 16 0x41#8, 0⟩ ∧
    (List.replicate 16 (0x41#8 : Byte)).length ≠ 17 ∧
    (withSession true full).drives 0 ⟨true, full, 0⟩ ∧ full.length = 17 := by decide

theorem witness_UnpackBadEscapeIsFramingError :
    (withSession true full).drives 0 ⟨true, full, 0⟩ ∧ (0xDB#8 : Byte) ≠ 0xDC#8 ∧ (0xDB#8 : Byte) ≠ 0xDD#8 := by decide

theorem witness_UnpackEscSetsEscapeFlag : (withSession false full).drives 0 ⟨false, full, 0⟩ := by decide

theorem witness_UnpackEndOnEmptyBufferChangesNothing : (withSession false []).drives 0 ⟨false, [], 0⟩ := by decide

/-- The longest and the shortest packet: Quat with a full buffer (U25), and Blink (U3). -/
theorem witness_UnpackEndDeliversPacket :
    (withSession false (List.replicate 17 0x00#8)).drives 0 ⟨false, 0x00#8 :: List.replicate 16 0x00#8, 0⟩ ∧
    PacketType.ofTag 0x00#8 = some .quat ∧ (List.replicate 16 (0x00#8 : Byte)).length = PacketType.quat.psize ∧
    (withSession false [0x05#8]).drives 0 ⟨false, [0x05#8], 0⟩ ∧
    PacketType.ofTag 0x05#8 = some .blink ∧ ([] : List Byte).length = PacketType.blink.psize := by decide

/-- Both alternatives: tag 0x09 (U11), and Blink with a payload byte (U12). -/
theorem witness_UnpackEndRejectsMalformed :
    ((withSession false [0x09#8]).drives 0 ⟨false, [0x09#8], 0⟩ ∧ 8 < (0x09#8 : Byte).toNat) ∧
    (withSession false [0x05#8, 0x00#8]).drives 0 ⟨false, [0x05#8, 0x00#8], 0⟩ ∧
    ∃ ty, PacketType.ofTag 0x05#8 = some ty ∧ [(0x00#8 : Byte)].length ≠ ty.psize :=
  ⟨by decide, by decide, .blink, by decide, by decide⟩

/-- idx 16 and idx 17. -/
theorem witness_UnpackAppendsOrdinaryByte :
    (withSession false (List.replicate 16 0x41#8)).drives 0 ⟨false, List.replicate 16 0x41#8, 0⟩ ∧
    (List.replicate 16 (0x41#8 : Byte)).length ≠ 17 ∧ (withSession false full).drives 0 ⟨false, full, 0⟩ ∧
    full.length = 17 ∧ (0xDC#8 : Byte) ≠ 0xDB#8 ∧ (0xDC#8 : Byte) ≠ 0xC0#8 := by decide

theorem witness_UnpackFollowsPseudocode : (withSession true full).drives 0 ⟨true, full, 0⟩ := by decide

theorem witness_ExactlyOneWireRowApplies : (withSession false []).drives 0 ⟨false, [], 0⟩ := by decide

theorem witness_PacketReadyOnlyForUnframedPacket :
    ∃ t, exec (.unpack 0 0xC0#8) (withSession false [0x05#8]) = .next t ∧
      t.result = some (.packetReady ⟨.blink, .empty⟩) := ⟨_, rfl, by decide⟩

/-- The request UNPACK(0, 0x41) on a full session: Overflow. -/
theorem witness_UnpackErrorEmptiesOnlyItsSession :
    ∃ t, (issue (withSession false full) [⟨0, .command, [2#8, 0#8, 0x41#8]⟩]).queue =
        ⟨0, .command, [2#8, 0#8, 0x41#8]⟩ :: [] ∧
      decode .command [2#8, 0#8, 0x41#8] = .ok (.unpack 0 0x41#8) ∧
      step (issue (withSession false full) [⟨0, .command, [2#8, 0#8, 0x41#8]⟩]) = .next t ∧
      t.result = some (.error .overflow) := ⟨_, rfl, rfl, rfl, by decide⟩

theorem witness_UninitialisedSessionIsRefused :
    (Instr.unpackEsc 1).session = some 1 ∧ (∀ j, Instr.unpackEsc 1 ≠ .sessionInit j) ∧
    (withSession false []).sessions[1]? = some none := ⟨rfl, fun _ h => (by cases h), by decide⟩

/-- UNPACK and SESSION_INIT on session s0, driven by caller 0, by caller 1. -/
theorem witness_SecondCallerIsRefused :
    (Instr.unpack 0 0x05#8).session = some 0 ∧ (Instr.sessionInit 0).session = some 0 ∧
    (withSession false []).sessions[0]? = some (some ⟨false, [], 0⟩) ∧
    (Session.driver ⟨false, [], 0⟩) ≠ ({ withSession false [] with caller := 1 } : State).caller := by decide

/-- k = N_SESSIONS = 2. -/
theorem witness_IndexOutOfRangeIsRefused :
    (Instr.sessionInit 2).session = some 2 ∧ (bare .typeFirst).sessions.length ≤ 2 := by decide

/-- A session not created, at k = N_SESSIONS - 1, and a created one that its caller drives, at k = 0. -/
theorem witness_SessionInitMakesFreshSession :
    (bare .typeFirst).mayInit 1 ∧ (withSession true full).mayInit 0 :=
  ⟨.inl (by decide), .inr ⟨⟨true, full, 0⟩, by decide⟩⟩

/-- Session s1, not created, initialised by caller 1, and session s0, driven by caller 0, by caller 0. -/
theorem witness_SessionInitHandsSessionToItsCaller :
    (∃ t, exec (.sessionInit 1) { withSession true full with caller := 1 } = .next t) ∧
    ∃ t, exec (.sessionInit 0) (withSession true full) = .next t := ⟨⟨_, rfl⟩, _, rfl⟩

/-- Another caller's step, LAYOUT, beside session s0; the driver's own UNPACK on it. -/
theorem witness_SessionKeepsItsDriver :
    (withSession true full).sessions[0]? = some (some ⟨true, full, 0⟩) ∧
    (∃ t, step (issue (withSession true full) [layoutRequest]) = .next t) ∧
    ∃ t, exec (.unpack 0 0xDC#8) (withSession true full) = .next t := ⟨by decide, ⟨_, rfl⟩, _, rfl⟩

/-- Caller 7 creates session s0 and feeds it, with caller 3's LAYOUT between: requests 0 and 2 are for s0. -/
theorem witness_NoRunDrivesASessionFromTwoCallers :
    let s := issue (bare .typeFirst) [⟨7, .command, [3#8, 0#8]⟩, layoutRequest, ⟨7, .command, [2#8, 0#8, 0x05#8]⟩]
    (∃ t, s.run 3 = some t) ∧ s.issuesOn 0 0 ⟨7, .command, [3#8, 0#8]⟩ ∧
      s.issuesOn 2 0 ⟨7, .command, [2#8, 0#8, 0x05#8]⟩ :=
  ⟨⟨_, rfl⟩, ⟨rfl, _, rfl, rfl⟩, ⟨rfl, _, rfl, rfl⟩⟩

/-- An UNPACK on s0, seen from another state with the same s0 and the same caller. -/
theorem witness_SessionOperationsAreIsolated :
    (Instr.unpack 0 0x05#8).session = some 0 ∧
    (∃ t, exec (.unpack 0 0x05#8) (withSession false []) = .next t) ∧
    ({ withSession false [] with sessions := [some ⟨false, [], 0⟩], mem := [(0, 0#8)] } : State).sessions[0]? =
      (withSession false []).sessions[0]? := ⟨rfl, ⟨_, rfl⟩, by decide⟩

theorem witness_DistinctSessionOperationsCommute :
    (Instr.unpack 0 0x05#8).session = some 0 ∧ (Instr.sessionInit 1).session = some 1 ∧ (0 : Nat) ≠ 1 ∧
    ∃ u v, exec (.unpack 0 0x05#8) (withSession false []) = .next u ∧ exec (.sessionInit 1) u = .next v :=
  ⟨rfl, rfl, by decide, _, _, rfl, rfl⟩

theorem witness_PackCommutesWithSessionOperations :
    (Instr.unpack 0 0x05#8).session = some 0 ∧
    ∃ u v, exec (.pack 0x05#8 .empty 34 0) (withSession false []) = .next u ∧ exec (.unpack 0 0x05#8) u = .next v :=
  ⟨rfl, _, _, rfl, rfl⟩

/-- Buffers that touch: OUT of the first is 0 .. 33, of the second 34 .. 67, in either order. -/
theorem witness_DisjointPacksCommute :
    (0 + 34 ≤ 34 ∨ 34 + 34 ≤ 0) ∧
    (∃ u v, exec (.pack 0x05#8 .empty 34 0) (bare .typeFirst) = .next u ∧
      exec (.pack 0x06#8 .empty 34 34) u = .next v ∧ u.result = some (.packed 2) ∧ v.result = some (.packed 2)) ∧
    ∃ u v, exec (.pack 0x05#8 .empty 34 34) (bare .typeFirst) = .next u ∧
      exec (.pack 0x06#8 .empty 34 0) u = .next v :=
  ⟨by decide, ⟨_, _, rfl, rfl, by decide, by decide⟩, _, _, rfl, rfl⟩

/-- A PACK that writes, a PACK that fails, and a row that works on no session. -/
theorem witness_OnlySuccessfulPackWritesMemory :
    (∃ t, exec (.pack 0x05#8 .empty 34 0) (withSession false []) = .next t ∧ t.result = some (.packed 2)) ∧
    (∃ t, exec (.pack 0x05#8 .empty 33 0) (withSession false []) = .next t ∧
      t.result = some (.error .bufferTooSmall)) ∧
    (∃ t, exec .tagIR (withSession false []) = .next t) ∧ Instr.tagIR.session = none :=
  ⟨⟨_, rfl, by decide⟩, ⟨_, rfl, by decide⟩, ⟨_, rfl⟩, rfl⟩

/-- ESC on a session with esc = 0; LAYOUT while esc = 1; SESSION_INIT of a session not yet created. -/
theorem witness_EscapeFlagSetOnlyByEsc :
    (∃ t, exec (.unpack 0 0xDB#8) (withSession false []) = .next t ∧
      t.sessions[0]? = some (some ⟨true, [], 0⟩)) ∧
    (∃ t, exec (.layout 0x00#8) (withSession true []) = .next t ∧ t.sessions[0]? = some (some ⟨true, [], 0⟩)) ∧
    ∃ t, exec (.sessionInit 1) (withSession false []) = .next t ∧ t.sessions[1]? = some (some ⟨false, [], 0⟩) ∧
      (withSession false []).sessions[1]? = some none :=
  ⟨⟨_, rfl, by decide⟩, ⟨_, rfl, by decide⟩, _, rfl, by decide, by decide⟩

/-- Both clauses: an Overflow empties (idx 17), an ordinary byte appends (idx 16). -/
theorem witness_SessionEmptiedExactlyAtResetPoints :
    (∃ t, exec (.unpack 0 0x41#8) (withSession false full) = .next t ∧ t.result = some (.error .overflow) ∧
      t.sessions[0]? = some (some ⟨false, [], 0⟩)) ∧
    ∃ t, exec (.unpack 0 0x41#8) (withSession false (List.replicate 16 0x41#8)) = .next t ∧
      t.result = some .incomplete ∧ t.sessions[0]? = some (some ⟨false, full, 0⟩) :=
  ⟨⟨_, rfl, by decide, by decide⟩, _, rfl, by decide, by decide⟩

/-- Each clause completes somewhere. -/
theorem witness_ResultsMatchTheirOperation :
    (∃ t, exec (.layout 0x00#8) (withSession false []) = .next t) ∧
    (∃ t, exec (.pack 0x05#8 .empty 34 0) (withSession false []) = .next t) ∧
    (∃ t, exec (.unpack 0 0xC0#8) (withSession false []) = .next t) ∧
    ∃ t, exec (.sessionInit 0) (withSession false []) = .next t :=
  ⟨⟨_, rfl⟩, ⟨_, rfl⟩, ⟨_, rfl⟩, ⟨_, rfl⟩⟩

theorem witness_LayoutAndPackErrorsChangeNothing :
    (∃ t, exec (.layout 0x09#8) (bare .typeFirst) = .next t ∧ t.result = some (.error .invalidType)) ∧
    ∃ t, exec (.pack 0x05#8 .empty 33 0) (bare .typeFirst) = .next t ∧ t.result = some (.error .bufferTooSmall) :=
  ⟨⟨_, rfl, by decide⟩, _, rfl, by decide⟩

theorem witness_StuffRowsGiveWireBytes : (0xDC#8 : Byte) ≠ 0xC0#8 ∧ (0xDC#8 : Byte) ≠ 0xDB#8 := by decide

/-- Each clause, at the first invalid tag. -/
theorem witness_InvalidTagsAreRejected :
    8 < (0x09#8 : Byte).toNat ∧ 34 ≤ 34 ∧ (withSession false [0x09#8]).drives 0 ⟨false, [0x09#8], 0⟩ := by decide

/-- P3, packed at 0 and fed to an Idle session. -/
theorem witness_PackedBytesUnpackToThePacket :
    ∃ u, exec (.pack 0x04#8 (.rgb 0xC0#8 0xDB#8 0x01#8) 34 0) (withSession false []) = .next u ∧
      u.result = some (.packed 7) ∧
      u.output 0 7 = [0x04#8, 0xDB#8, 0xDC#8, 0xDB#8, 0xDD#8, 0x01#8, 0xC0#8].map some ∧
      u.drives 0 ⟨false, [], 0⟩ := ⟨_, rfl, by decide, by decide, by decide⟩

theorem witness_SessionHealsAfterError :
    (∃ t, exec (.unpack 0 0x41#8) (withSession true []) = .next t ∧ t.result = some (.error .framingError)) ∧
    (Payload.word 1#32).kind = PacketType.id.kind := ⟨⟨_, rfl, by decide⟩, by decide⟩

theorem witness_RepeatedEndsAreHarmless : (withSession false []).drives 0 ⟨false, [], 0⟩ := by decide

theorem witness_OverflowDoesNotResynchronise :
    (withSession false full).drives 0 ⟨false, full, 0⟩ ∧ full.length = 17 ∧ (0x41#8 : Byte) ≠ 0xDB#8 ∧
    (0x41#8 : Byte) ≠ 0xC0#8 := by decide

end Sys2Proof.Tests
end

section
/-! SER_BE at the two field widths wider than a byte, and the unframed packet of each payload variant
(40_packet_model.md R104, R106). -/

namespace Sys2Proof

theorem serBE_four {n : Nat} (v : BitVec n) :
    serBE v 4 = [v.extractLsb' 24 8, v.extractLsb' 16 8, v.extractLsb' 8 8, v.extractLsb' 0 8] := rfl

theorem serBE_two {n : Nat} (v : BitVec n) : serBE v 2 = [v.extractLsb' 8 8, v.extractLsb' 0 8] := rfl

/-- Settles O13: one clause per payload variant, SER_BE written out at the width of its fields. -/
theorem unframedBytesAreBigEndianFields : Obligations.UnframedBytesAreBigEndianFields := by
  refine ⟨fun t w x y z => ?quat4, fun t x y z => ?vec3, fun t r g b => ?rgb, fun t v => ?word, fun t => ?empty⟩
  case quat4 => simp only [unframed, ser, serBE_four, List.cons_append, List.nil_append]
  case vec3 => simp only [unframed, ser, serBE_two, List.cons_append, List.nil_append]
  case rgb => rfl
  case word => simp only [unframed, ser, serBE_four]
  case empty => rfl

end Sys2Proof
end

section
/-! PACK on an input that is not well-formed, and on an invalid tag (40_packet_model.md R112). -/

namespace Sys2Proof.Machine

/-- PACK refuses only an input that is not well-formed, and only as payloadMismatch (40_packet_model.md R112). -/
theorem execPack_eq_refused_iff (t : Byte) (data : Payload) (cap out : Nat) (s : State) (r : Refusal) :
    execPack t data cap out s = .refused r ↔ r = .payloadMismatch ∧ packInputOk t data = false := by
  rcases execPack_cases t data cap out s with ⟨hi, hx⟩ | ⟨e, hi, -, hx⟩ | ⟨ty, ht, hk, -, hx⟩ <;> rw [hx]
  · simp [hi, eq_comm]
  · simp [hi]
  · have hi : packInputOk t data = true := by simp [packInputOk, ht, hk]
    simp [hi]

/-- With an invalid tag PACK raises one and the same error whatever the payload and OUT are (40_packet_model.md R112,
41_pack.md R124). -/
theorem execPack_of_invalid_tag {t : Byte} (ht : 8 < t.toNat) (cap : Nat) (s : State) :
    ∃ e, ∀ data out, execPack t data cap out s = .next (s.answer (.error e)) := by
  have hnone : ∀ ty, PacketType.ofTag t ≠ some ty := by simp [(PacketType.ofTag_eq_none_iff t).2 ht]
  obtain ⟨e, he⟩ : ∃ e, packError s.priority t cap = some e := by
    refine Option.ne_none_iff_exists'.1 fun h => ?_
    obtain ⟨-, ty, hty⟩ := (packError_eq_none_iff _ _ _).1 h
    exact hnone ty hty
  refine ⟨e, fun data out => ?_⟩
  rcases execPack_cases t data cap out s with ⟨hi, -⟩ | ⟨e', -, he', hx⟩ | ⟨ty, hty, -⟩
  · obtain ⟨ty, hty, -⟩ := (packInputOk_eq_false_iff t data).1 hi
    exact absurd hty (hnone ty)
  · rw [he] at he'
    cases he'
    exact hx
  · exact absurd hty (hnone ty)

theorem exec_pack (t : Byte) (data : Payload) (cap out : Nat) (s : State) :
    exec (.pack t data cap out) s = execPack t data cap out s := rfl

/-- Settles O16: PACK's refusal is that of an input that is not well-formed, and an invalid tag's error is one for all
payloads. -/
theorem packRefusesMismatchedPayload : Obligations.PackRefusesMismatchedPayload := by
  intro t data cap out s
  simp only [exec_pack]
  refine ⟨?iff, ?only, ?ignored⟩
  case iff => rw [execPack_eq_refused_iff, packInputOk_eq_false_iff]; simp only [true_and]
  case only => exact fun r h => ((execPack_eq_refused_iff ..).1 h).1
  case ignored =>
    intro ht data'
    obtain ⟨e, he⟩ := execPack_of_invalid_tag ht cap s
    rw [he, he]

end Sys2Proof.Machine
end

section
/-! SER and DES as inverses: DES_BE and SER_BE of a field at its offset, then of the fields of each payload variant
(40_packet_model.md R106 to R108). -/

namespace Sys2Proof

theorem serBE_one (b : Byte) : serBE b 1 = [b] := by
  simp [serBE]

/-- An Rgb payload is three fields of one byte, so that all variants are serialized by SER_BE. -/
theorem ser_rgb (r g b : Byte) : ser (.rgb r g b) = serBE r 1 ++ serBE g 1 ++ serBE b 1 := by
  simp only [serBE_one]
  rfl

/-- DES_BE of a field's slice is the value SER_BE wrote there, whatever stands before and after it. -/
theorem desBE_slice_serBE {n : Nat} (v : BitVec n) (w : Nat) (hn : n = 8 * w) (before after : List Byte) :
    desBE n (slice (before ++ (serBE v w ++ after)) before.length (before.length + w)) = v := by
  have hs : slice (before ++ (serBE v w ++ after)) before.length (before.length + w) = serBE v w := by
    simp [slice, length_serBE]
  rw [hs, desBE_serBE v w hn]

/-- DES reads back a payload of the type's kind: each field stands at its offset, after the fields before it. -/
theorem des_ser {ty : PacketType} {data : Payload} (h : data.kind = ty.kind) : des ty (ser data) = data := by
  rw [des, ← h]
  cases data with
  | quat4 w x y z =>
    have hw := desBE_slice_serBE w 4 rfl [] (serBE x 4 ++ serBE y 4 ++ serBE z 4)
    have hx := desBE_slice_serBE x 4 rfl (serBE w 4) (serBE y 4 ++ serBE z 4)
    have hy := desBE_slice_serBE y 4 rfl (serBE w 4 ++ serBE x 4) (serBE z 4)
    have hz := desBE_slice_serBE z 4 rfl (serBE w 4 ++ serBE x 4 ++ serBE y 4) []
    exact congr (congr (congr (congrArg Payload.quat4 hw) hx) hy) hz
  | vec3 x y z =>
    have hx := desBE_slice_serBE x 2 rfl [] (serBE y 2 ++ serBE z 2)
    have hy := desBE_slice_serBE y 2 rfl (serBE x 2) (serBE z 2)
    have hz := desBE_slice_serBE z 2 rfl (serBE x 2 ++ serBE y 2) []
    exact congr (congr (congrArg Payload.vec3 hx) hy) hz
  | rgb r g b =>
    have hr := desBE_slice_serBE r 1 rfl [] (serBE g 1 ++ serBE b 1)
    have hg := desBE_slice_serBE g 1 rfl (serBE r 1) (serBE b 1)
    have hb := desBE_slice_serBE b 1 rfl (serBE r 1 ++ serBE g 1) []
    rw [ser_rgb]
    exact congr (congr (congrArg Payload.rgb hr) hg) hb
  | word v => exact congrArg Payload.word (desBE_slice_serBE v 4 rfl [] [])
  | empty => rfl

/-- The first field read and written again. -/
theorem serBE_desBE_first {n w : Nat} {p : List Byte} (hn : n = 8 * w) (hp : w ≤ p.length) :
    serBE (desBE n (slice p 0 w)) w = slice p 0 w := by
  have h := serBE_desBE_slice n w 0 p hn (by omega)
  rwa [Nat.zero_add] at h

/-- The next field read and written again prolongs what stands before it. -/
theorem slice_append_serBE_desBE {n w i : Nat} {p : List Byte} (hn : n = 8 * w) (hp : i + w ≤ p.length) :
    slice p 0 i ++ serBE (desBE n (slice p i (i + w))) w = slice p 0 (i + w) := by
  rw [serBE_desBE_slice n w i p hn hp, slice_append_slice p 0 i (i + w) (Nat.zero_le i) (Nat.le_add_right i w)]

theorem serBE_desBE_three {n w : Nat} {p : List Byte} (hn : n = 8 * w) (hp : w + w + w ≤ p.length) :
    serBE (desBE n (slice p 0 w)) w ++ serBE (desBE n (slice p w (w + w))) w ++
      serBE (desBE n (slice p (w + w) (w + w + w))) w = slice p 0 (w + w + w) := by
  rw [serBE_desBE_first hn (by omega), slice_append_serBE_desBE hn (by omega), slice_append_serBE_desBE hn hp]

theorem serBE_desBE_four {n w : Nat} {p : List Byte} (hn : n = 8 * w) (hp : w + w + w + w ≤ p.length) :
    serBE (desBE n (slice p 0 w)) w ++ serBE (desBE n (slice p w (w + w))) w ++
        serBE (desBE n (slice p (w + w) (w + w + w))) w ++
      serBE (desBE n (slice p (w + w + w) (w + w + w + w))) w = slice p 0 (w + w + w + w) := by
  rw [serBE_desBE_three hn (by omega), slice_append_serBE_desBE hn hp]

/-- SER writes back the PSIZE(t) bytes DES read: the type's fields cover them from the first to the last. -/
theorem ser_des {ty : PacketType} {p : List Byte} (hp : p.length = ty.psize) : ser (des ty p) = p := by
  have hfields : ser (des ty p) = slice p 0 ty.psize := by
    have hle := hp.ge
    cases ty with
    | quat => exact serBE_desBE_four rfl hle
    | acc | gyro | mag => exact serBE_desBE_three rfl hle
    | color => exact (ser_rgb ..).trans (serBE_desBE_three rfl hle)
    | blink | infraRed => rfl
    | version | id => exact serBE_desBE_first rfl hle
  rw [hfields, slice_zero_length p _ hp]

/-- Settles O19: DES reads the fields SER wrote, and SER writes the bytes DES read, field by field. -/
theorem desAndSerAreInverse : Obligations.DesAndSerAreInverse :=
  ⟨fun _ _ h => des_ser h, fun _ _ hp => ser_des hp⟩

end Sys2Proof
end

section
/-! STUFF over a byte list as one flat map, and the length of the frame of a packet (30_encoding.md R70, R73,
41_pack.md R122, R126). -/

namespace Sys2Proof

theorem stuffAll_eq_flatMap (u : List Byte) : stuffAll u = u.flatMap stuff := by
  induction u with
  | nil => rfl
  | cons b u ih => rw [stuffAll, ih, List.flatMap_cons]

theorem PacketType.psize_le (ty : PacketType) : ty.psize ≤ 16 := by
  cases ty <;> decide

/-- A valid tag needs no escape, so only payload bytes are escaped (30_encoding.md R70). -/
theorem escapedCount_unframed {t : Byte} (ht : t.toNat ≤ 8) (data : Payload) :
    escapedCount (unframed t data) = escapedCount (ser data) := by
  have hplain : ¬ (t = endByte ∨ t = escByte) := by
    rintro (rfl | rfl) <;> exact absurd ht (by decide)
  rw [unframed, escapedCount, if_neg hplain, Nat.zero_add]

/-- The length of a packet's frame (41_pack.md R126). -/
theorem length_frame_unframed {t : Byte} {ty : PacketType} {data : Payload} (ht : PacketType.ofTag t = some ty)
    (hk : data.kind = ty.kind) :
    (frame (unframed t data)).length = 1 + ty.psize + escapedCount (ser data) + 1 := by
  rw [length_frame, escapedCount_unframed (PacketType.tag_of_ofTag ht).2, unframed, List.length_cons, length_ser hk,
    Nat.add_comm ty.psize 1]

/-- A frame holds at least the tag and END, and at most PACKET_MAX_SIZE bytes (41_pack.md R126). -/
theorem length_frame_unframed_bounds {t : Byte} {ty : PacketType} {data : Payload}
    (ht : PacketType.ofTag t = some ty) (hk : data.kind = ty.kind) :
    2 ≤ (frame (unframed t data)).length ∧ (frame (unframed t data)).length ≤ 34 := by
  have hlen := length_frame_unframed ht hk
  have hsize := ty.psize_le
  have hesc : escapedCount (ser data) ≤ ty.psize := length_ser hk ▸ escapedCount_le (ser data)
  omega

end Sys2Proof
end

section
/-! What PACK writes to OUT and leaves outside it, when it succeeds and when it raises which error
(41_pack.md R120 to R128). -/

namespace Sys2Proof.Machine

@[simp] theorem State.readByte_answer (s : State) (r : Result) (a : Nat) :
    (s.answer r).readByte a = s.readByte a := rfl

/-! ## The three parts of memory around OUT -/

/-- OUT[0..n) holds the frame. -/
theorem State.readByte_writeOut_frame (s : State) (out : Nat) {cap i : Nat} {w : List Byte} (hw : w.length ≤ cap)
    (hi : i < w.length) : (s.writeOut out cap w).readByte (out + i) = w[i]? := by
  rw [State.readByte_writeOut s out cap w hw, if_pos (by omega), Nat.add_sub_cancel_left,
    List.getElem?_append_left hi]

/-- Every address of OUT holds a byte, the don't-care positions too (41_pack.md R123). -/
theorem State.exists_readByte_writeOut (s : State) (out : Nat) {cap i : Nat} {w : List Byte} (hw : w.length ≤ cap)
    (hi : i < cap) : ∃ b, (s.writeOut out cap w).readByte (out + i) = some b := by
  rw [State.readByte_writeOut s out cap w hw, if_pos (by omega), Nat.add_sub_cancel_left]
  refine ⟨_, List.getElem?_eq_getElem ?_⟩
  rw [List.length_append, freeBytes_length]
  omega

theorem State.readByte_writeOut_outside (s : State) {out cap a : Nat} {w : List Byte} (hw : w.length ≤ cap)
    (ha : a < out ∨ out + cap ≤ a) : (s.writeOut out cap w).readByte a = s.readByte a := by
  rw [State.readByte_writeOut s out cap w hw, if_neg (by omega)]

/-! ## When PACK succeeds -/

theorem packInputOk_of_kind {t : Byte} {ty : PacketType} {data : Payload} (ht : PacketType.ofTag t = some ty)
    (hk : data.kind = ty.kind) : packInputOk t data = true := by
  simp [packInputOk, ht, hk]

theorem packInputOk_of_invalid_tag {t : Byte} (ht : 8 < t.toNat) (data : Payload) : packInputOk t data = true := by
  simp [packInputOk, (PacketType.ofTag_eq_none_iff t).2 ht]

/-- With a valid tag, the matching variant and cap >= 34, PACK writes the frame and returns its length. -/
theorem execPack_of_valid {t : Byte} {ty : PacketType} {data : Payload} {cap : Nat}
    (ht : PacketType.ofTag t = some ty) (hk : data.kind = ty.kind) (hc : 34 ≤ cap) (out : Nat) (s : State) :
    execPack t data cap out s =
      .next ((s.writeOut out cap (frame (unframed t data))).answer (.packed (frame (unframed t data)).length)) := by
  rw [execPack, if_pos (packInputOk_of_kind ht hk), (packError_eq_none_iff _ _ _).2 ⟨hc, ty, ht⟩]

/-- Everything a PACK that completes can do: raise the error of its inputs, or write the frame. -/
theorem execPack_next {t : Byte} {data : Payload} {cap out : Nat} {s u : State}
    (hx : execPack t data cap out s = .next u) :
    (∃ e, packInputOk t data = true ∧ packError s.priority t cap = some e ∧ u = s.answer (.error e)) ∨
    (∃ ty, PacketType.ofTag t = some ty ∧ data.kind = ty.kind ∧ 34 ≤ cap ∧
      u = (s.writeOut out cap (frame (unframed t data))).answer (.packed (frame (unframed t data)).length)) := by
  rcases execPack_cases t data cap out s with ⟨-, h⟩ | ⟨e, hi, he, h⟩ | ⟨ty, ht, hk, hc, h⟩ <;>
    rw [h] at hx <;> cases hx
  · exact .inl ⟨e, hi, he, rfl⟩
  · exact .inr ⟨ty, ht, hk, hc, rfl⟩

/-- A PACK that returned Ok(n) had a valid tag, the matching variant and cap >= 34, and n is its frame's length. -/
theorem execPack_packed {t : Byte} {data : Payload} {cap out n : Nat} {s u : State}
    (hx : execPack t data cap out s = .next u) (hr : u.result = some (.packed n)) :
    ∃ ty, PacketType.ofTag t = some ty ∧ data.kind = ty.kind ∧ 34 ≤ cap ∧ n = (frame (unframed t data)).length ∧
      u = (s.writeOut out cap (frame (unframed t data))).answer (.packed n) := by
  obtain ⟨e, -, -, rfl⟩ | ⟨ty, ht, hk, hc, rfl⟩ := execPack_next hx
  · cases hr
  · cases hr
    exact ⟨ty, ht, hk, hc, rfl, rfl⟩

/-- OUT[0..n) after a PACK that returned Ok(n) is the frame. -/
theorem readByte_of_execPack_packed {t : Byte} {data : Payload} {cap out n i : Nat} {s u : State}
    (hx : execPack t data cap out s = .next u) (hr : u.result = some (.packed n)) (hi : i < n) :
    u.readByte (out + i) = (frame (unframed t data))[i]? := by
  obtain ⟨ty, ht, hk, hc, rfl, rfl⟩ := execPack_packed hx hr
  have hw := (length_frame_unframed_bounds ht hk).2.trans hc
  rw [State.readByte_answer, State.readByte_writeOut_frame s out hw hi]

/-- Settles O14: the write of a valid PACK, read in OUT[0..n), in OUT[n..cap) and outside OUT. -/
theorem packWritesFrame : Obligations.PackWritesFrame := by
  intro t ty data cap out s ht hk hc
  have hw := (length_frame_unframed_bounds ht hk).2.trans hc
  refine ⟨_, _, execPack_of_valid ht hk hc out s, ?stuffed, hw, rfl, fun i hi => ?frame, fun i _ hi => ?dontCare,
    fun a ha => ?outside, rfl, rfl, rfl, rfl⟩
  case stuffed => rw [frame, stuffAll_eq_flatMap]; rfl
  case frame => exact s.readByte_writeOut_frame out hw hi
  case dontCare => exact s.exists_readByte_writeOut out hw hi
  case outside => exact s.readByte_writeOut_outside hw ha

/-- Settles O17: the frame's length, by the tag, the payload's size and its escapes. -/
theorem packLengthIsBounded : Obligations.PackLengthIsBounded := by
  intro t data cap out n s u hx hr
  obtain ⟨ty, ht, hk, -, rfl, -⟩ := execPack_packed hx hr
  obtain ⟨hlow, hhigh⟩ := length_frame_unframed_bounds ht hk
  exact ⟨hlow, hhigh, ty, ht, length_frame_unframed ht hk⟩

/-! ## When PACK fails, and with which error (41_pack.md R124) -/

theorem execPack_of_packError {t : Byte} {data : Payload} {cap : Nat} {s : State} {e : ErrorKind}
    (hi : packInputOk t data = true) (he : packError s.priority t cap = some e) (out : Nat) :
    execPack t data cap out s = .next (s.answer (.error e)) := by
  rw [execPack, if_pos hi, he]
  rfl

theorem packError_of_valid_tag {t : Byte} {ty : PacketType} {cap : Nat} (p : PackErrPriority)
    (ht : PacketType.ofTag t = some ty) (hc : cap < 34) : packError p t cap = some .bufferTooSmall := by
  simp [packError, packetMaxSize, ht, hc]

theorem packError_of_invalid_tag {t : Byte} {cap : Nat} (p : PackErrPriority) (ht : 8 < t.toNat) (hc : 34 ≤ cap) :
    packError p t cap = some .invalidType := by
  simp [packError, packetMaxSize, (PacketType.ofTag_eq_none_iff t).2 ht, Nat.not_lt.2 hc]

/-- The one case that PACK_ERR_PRIORITY decides: both error conditions hold. -/
theorem packError_of_both {t : Byte} {cap : Nat} (ht : 8 < t.toNat) (hc : cap < 34) :
    packError .capacityFirst t cap = some .bufferTooSmall ∧ packError .typeFirst t cap = some .invalidType := by
  simp [packError, packetMaxSize, (PacketType.ofTag_eq_none_iff t).2 ht, hc]

/-- Settles O15: the error of each of the four cases, raised on an input that is well-formed. -/
theorem packErrorsFollowPriority : Obligations.PackErrorsFollowPriority := by
  intro t data cap out s
  have hinvalid (ht : 8 < t.toNat) := packInputOk_of_invalid_tag ht data
  refine ⟨?valid, fun ht hc => ?invalid, fun ht hc hp => ?capacityFirst, fun ht hc hp => ?typeFirst⟩
  case valid =>
    rintro ⟨ty, ht, hk⟩ hc
    exact execPack_of_packError (packInputOk_of_kind ht hk) (packError_of_valid_tag _ ht hc) out
  case invalid => exact execPack_of_packError (hinvalid ht) (packError_of_invalid_tag _ ht hc) out
  case capacityFirst => exact execPack_of_packError (hinvalid ht) (hp ▸ (packError_of_both ht hc).1) out
  case typeFirst => exact execPack_of_packError (hinvalid ht) (hp ▸ (packError_of_both ht hc).2) out

/-! ## What PACK depends on (41_pack.md R128) -/

/-- PACK's outcome from another state of the same priority and into another OUT: it completes with the same result. -/
theorem execPack_result_congr {t : Byte} {data : Payload} {cap out : Nat} {s s' u : State}
    (hp : s.priority = s'.priority) (hx : execPack t data cap out s = .next u) (out' : Nat) :
    ∃ u', execPack t data cap out' s' = .next u' ∧ u'.result = u.result := by
  obtain ⟨e, hi, he, rfl⟩ | ⟨ty, ht, hk, hc, rfl⟩ := execPack_next hx
  · exact ⟨_, execPack_of_packError hi (hp ▸ he) out', rfl⟩
  · exact ⟨_, execPack_of_valid ht hk hc out' s', rfl⟩

theorem execPack_sessions {t : Byte} {data : Payload} {cap out : Nat} {s u : State}
    (hx : execPack t data cap out s = .next u) : u.sessions = s.sessions := by
  obtain ⟨e, -, -, rfl⟩ | ⟨ty, -, -, -, rfl⟩ := execPack_next hx
  · rfl
  · rfl

/-- Settles O20: both runs complete with one result, and on success both OUT[0..n) hold the same frame. -/
theorem packDependsOnOperandsAndPriority : Obligations.PackDependsOnOperandsAndPriority := by
  intro t data cap out out' s s' u hp hx
  obtain ⟨u', hx', hres⟩ := execPack_result_congr hp hx out'
  refine ⟨u', hx', hres, fun n hn i hi => ?_, execPack_sessions hx, execPack_sessions hx'⟩
  rw [readByte_of_execPack_packed hx' (hres.trans hn) hi, readByte_of_execPack_packed hx hn hi]

end Sys2Proof.Machine
end

section
/-! A frame fed to a session: UNPACK's rows that meet no error, the bytes of one STUFF, then the whole frame by
induction over the unframed bytes (42_unpack.md R140 to R151). -/

namespace Sys2Proof.Machine

/-! ## UNPACK on one session, row by row -/

theorem Session.unpack_escByte {S : Session} (he : S.esc = false) : S.unpack escByte = (S.setEsc, .incomplete) := by
  simp [Session.unpack, Session.classify, Session.takeRow, he]

theorem Session.unpack_escEndByte {S : Session} (he : S.esc = true) :
    S.unpack escEndByte = S.clearEsc.append endByte := by
  simp [Session.unpack, Session.classify, Session.takeRow, he]

theorem Session.unpack_escEscByte {S : Session} (he : S.esc = true) :
    S.unpack escEscByte = S.clearEsc.append escByte := by
  have hne : escEscByte ≠ escEndByte := by decide
  simp [Session.unpack, Session.classify, Session.takeRow, he, hne]

theorem Session.unpack_ordinary {S : Session} {c : Byte} (he : S.esc = false) (hend : c ≠ endByte)
    (hesc : c ≠ escByte) : S.unpack c = S.append c := by
  simp [Session.unpack, Session.classify, Session.takeRow, he, hend, hesc]

/-- END delivers the packet whose unframed encoding the buffer holds (42_unpack.md R145). -/
theorem Session.unpack_endByte_of_received {S : Session} {p : Packet} (he : S.esc = false)
    (hr : S.received = some p) : S.unpack endByte = (S.idled, .packetReady p) := by
  have hne : endByte ≠ escByte := by decide
  obtain ⟨t, bs, -, hbuf, -⟩ := (S.received_eq_some_iff p).1 hr
  have hidx : S.idx ≠ 0 := by simp [Session.idx, hbuf]
  simp [Session.unpack, Session.classify, Session.takeRow, he, hne, hidx, hr, Session.empty_eq_idled]

theorem Session.append_of_length_lt {S : Session} (hroom : S.buf.length < 17) (b : Byte) :
    S.append b = ({ S with buf := S.buf ++ [b] }, .incomplete) := by
  rcases S.append_cases b with ⟨hfull, -⟩ | ⟨-, h⟩
  · omega
  · exact h

theorem Session.clearEsc_setEsc {S : Session} (he : S.esc = false) : S.setEsc.clearEsc = S := by
  cases S; cases he; rfl

theorem Session.idled_of_idle {S : Session} (he : S.esc = false) (hb : S.buf = []) : S.idled = S := by
  cases S; cases he; cases hb; rfl

/-- A buffer that holds a packet's unframed encoding holds at most UNPACKED_MAX_SIZE bytes (00_scope.md R9). -/
theorem Session.length_buf_of_received {S : Session} {p : Packet} (hr : S.received = some p) :
    S.buf.length ≤ 17 := by
  obtain ⟨t, bs, ty, hbuf, -, hlen, -⟩ := (S.received_eq_some_iff p).1 hr
  have hsize := ty.psize_le
  rw [hbuf, List.length_cons]
  omega

/-- A buffer that holds what PACK frames is received as the packet PACK was given (40_packet_model.md R108, R114). -/
theorem Session.received_of_unframed {S : Session} {t : Byte} {ty : PacketType} {data : Payload}
    (ht : PacketType.ofTag t = some ty) (hk : data.kind = ty.kind) (hb : S.buf = unframed t data) :
    S.received = some ⟨ty, data⟩ :=
  (S.received_eq_some_iff _).2 ⟨t, ser data, ty, hb, ht, length_ser hk, by rw [des_ser hk]⟩

/-! ## Feeding one stuffed byte, then a frame -/

/-- An ESC and the byte that completes the escape buffer one byte (42_unpack.md R141, R143). -/
theorem feed_escape {k : Nat} {s : State} {S : Session} {b c : Byte} (hd : s.drives k S) (he : S.esc = false)
    (hroom : S.buf.length < 17) (hrow : S.setEsc.unpack c = S.setEsc.clearEsc.append b) :
    feed k [escByte, c] s =
      some (s.after k { S with buf := S.buf ++ [b] } .incomplete, [.incomplete, .incomplete]) := by
  have hsecond : S.setEsc.unpack c = ({ S with buf := S.buf ++ [b] }, .incomplete) := by
    rw [hrow, Session.clearEsc_setEsc he, Session.append_of_length_lt hroom]
  have h1 := feed_singleton escByte hd
  rw [Session.unpack_escByte he] at h1
  have h2 := feed_singleton c (State.after_drives .incomplete hd S.setEsc_driver)
  rw [hsecond, State.after_after] at h2
  exact feed_append h1 h2

/-- The bytes STUFF gives for b, fed to a session with room, put b into its buffer (30_encoding.md R71). -/
theorem feed_stuff {k : Nat} {s : State} {S : Session} (b : Byte) (hd : s.drives k S) (he : S.esc = false)
    (hroom : S.buf.length < 17) :
    feed k (stuff b) s =
      some (s.after k { S with buf := S.buf ++ [b] } .incomplete,
        List.replicate (stuff b).length .incomplete) := by
  rcases stuff_cases b with ⟨rfl, hs⟩ | ⟨rfl, hs⟩ | ⟨hend, hesc, hs⟩ <;> rw [hs]
  · exact feed_escape hd he hroom (Session.unpack_escEndByte S.setEsc_esc)
  · exact feed_escape hd he hroom (Session.unpack_escEscByte S.setEsc_esc)
  · rw [feed_singleton b hd, Session.unpack_ordinary he hend hesc, Session.append_of_length_lt hroom]
    rfl

/-- A frame fed to a session outside an escape, whose buffer with the frame's bytes is a packet: Incomplete for every
byte but the last, then that packet, and the session Idle. -/
theorem feed_frame {k : Nat} {s : State} {S : Session} {u : List Byte} {p : Packet} (hd : s.drives k S)
    (he : S.esc = false) (hr : Session.received { S with buf := S.buf ++ u } = some p) :
    feed k (frame u) s =
      some (s.after k S.idled (.packetReady p),
        List.replicate (stuffAll u).length .incomplete ++ [.packetReady p]) := by
  induction u generalizing s S with
  | nil =>
    rw [List.append_nil] at hr
    have hlast := feed_singleton endByte hd
    rw [Session.unpack_endByte_of_received he hr] at hlast
    exact hlast
  | cons b u ih =>
    have hroom : S.buf.length < 17 := by
      have hle := Session.length_buf_of_received hr
      simp only [List.length_append, List.length_cons] at hle
      omega
    rw [List.append_cons] at hr
    have hrest := ih (S := { S with buf := S.buf ++ [b] }) (State.after_drives .incomplete hd rfl) he hr
    rw [State.after_after] at hrest
    have hall := feed_append (feed_stuff b hd he hroom) hrest
    rw [← List.append_assoc, ← List.replicate_add, ← List.length_append] at hall
    rw [frame, stuffAll, List.append_assoc]
    exact hall

/-! ## What a PACK left in OUT -/

/-- OUT[0..n) after a PACK that returned Ok(n), as the byte sink reads it (20_memory.md R44). -/
theorem output_of_execPack_packed {t : Byte} {data : Payload} {cap out n : Nat} {s u : State}
    (hx : execPack t data cap out s = .next u) (hr : u.result = some (.packed n)) :
    u.output out n = (frame (unframed t data)).map some := by
  obtain ⟨-, -, -, -, hn, -⟩ := execPack_packed hx hr
  refine List.ext_getElem (by simp [State.output, hn]) fun i hi _ => ?_
  have hi : i < n := by simpa [State.output] using hi
  simp [State.output, readByte_of_execPack_packed hx hr hi, List.getElem?_eq_getElem (hn ▸ hi)]

/-- Settles O54: OUT holds the packet's frame, and an Idle session is fed that frame. -/
theorem packedBytesUnpackToThePacket : Obligations.PackedBytesUnpackToThePacket := by
  intro t data cap out n s u w k S hx hres _ hout hd he hb
  obtain ⟨ty, ht, hk, -, hn, -⟩ := execPack_packed hx hres
  have hw : w = frame (unframed t data) :=
    List.map_injective_iff.2 (Option.some_injective _) (hout.symm.trans (output_of_execPack_packed hx hres))
  have hcount : n - 1 = (stuffAll (unframed t data)).length := by simp [hn, frame]
  have hrec : Session.received { S with buf := S.buf ++ unframed t data } = some ⟨ty, data⟩ :=
    Session.received_of_unframed ht hk (by rw [hb, List.nil_append])
  have hfeed := feed_frame hd he hrec
  rw [Session.idled_of_idle he hb, State.after_self hd, ← hw, ← hcount] at hfeed
  exact ⟨_, ty, ht, hfeed, rfl, rfl⟩

end Sys2Proof.Machine
end

section
/-! What an error from LAYOUT or PACK leaves: the state it was raised in, with the error as its result
(60_exceptions.md R206). -/

namespace Sys2Proof.Machine

theorem exec_layout (t : Byte) (s : State) : exec (.layout t) s = execLayout t s := rfl

/-- A LAYOUT that returned an error changed only the result. -/
theorem execLayout_error {t : Byte} {s u : State} {e : ErrorKind} (hx : execLayout t s = .next u)
    (hr : u.result = some (.error e)) : u = s.answer (.error e) := by
  rcases execLayout_cases t s with ⟨-, h⟩ | ⟨ty, -, h⟩ <;> rw [h] at hx <;> cases hx
  case inl => cases hr; rfl
  case inr => cases hr

/-- A PACK that returned an error changed only the result: the PACK that writes OUT returns Ok(n). -/
theorem execPack_error {t : Byte} {data : Payload} {cap out : Nat} {s u : State} {e : ErrorKind}
    (hx : execPack t data cap out s = .next u) (hr : u.result = some (.error e)) : u = s.answer (.error e) := by
  obtain ⟨e', -, -, rfl⟩ | ⟨ty, -, -, -, rfl⟩ := execPack_next hx
  case inl => cases hr; rfl
  case inr => cases hr

/-- Settles O49: the two instructions that raise an error without a session. -/
theorem layoutAndPackErrorsChangeNothing : Obligations.LayoutAndPackErrorsChangeNothing := by
  rintro i s t e (⟨tag, rfl⟩ | ⟨tag, data, cap, out, rfl⟩) hx hr
  case inl => exact execLayout_error (exec_layout tag s ▸ hx) hr
  case inr => exact execPack_error (exec_pack tag data cap out s ▸ hx) hr

end Sys2Proof.Machine
end

section
/-! The points at which a session is emptied: what UNPACK leaves of a session beside what it returns, and what a
completing instruction leaves of a created session (70_reset_and_hazards.md R241). -/

namespace Sys2Proof.Machine

/-- `S'` holds the bytes of `S`, or one byte more where `S` had room (42_unpack.md R148). -/
def Session.KeepsOrGrows (S S' : Session) : Prop :=
  S'.buf = S.buf ∨ (S.buf.length ≠ 17 ∧ ∃ b, S'.buf = S.buf ++ [b])

/-- The results with which an UNPACK empties its session: PacketReady and the errors. -/
def Result.Resets (r : Result) : Prop := (∃ p, r = .packetReady p) ∨ ∃ e, r = .error e

theorem Result.resets_packetReady (p : Packet) : (Result.packetReady p).Resets := .inl ⟨p, rfl⟩

theorem Result.resets_error (e : ErrorKind) : (Result.error e).Resets := .inr ⟨e, rfl⟩

theorem Result.not_resets_incomplete : ¬ Result.incomplete.Resets := by
  rintro (⟨p, h⟩ | ⟨e, h⟩) <;> cases h

/-- The registers and the result `r` that UNPACK gives session `S`: emptied by a result that resets it, and otherwise
holding its bytes, with at most one more. -/
def Session.EmptiedOrGrown (S : Session) (r : Session × Result) : Prop :=
  (r.1 = S.idled ∧ r.2.Resets) ∨ (¬ r.2.Resets ∧ S.KeepsOrGrows r.1)

theorem Session.append_emptiedOrGrown (S : Session) (b : Byte) : S.EmptiedOrGrown (S.append b) := by
  rcases S.append_cases b with ⟨-, h⟩ | ⟨hroom, h⟩ <;> rw [h]
  case inl => exact .inl ⟨rfl, Result.resets_error _⟩
  case inr => exact .inr ⟨Result.not_resets_incomplete, .inr ⟨hroom, b, rfl⟩⟩

/-- Row by row; the two escaped literals append to the session with esc cleared, whose bytes are those of `S`. -/
theorem Session.unpack_emptiedOrGrown (S : Session) (c : Byte) : S.EmptiedOrGrown (S.unpack c) := by
  rcases S.unpack_cases c with ⟨-, -, -, h⟩ | ⟨-, -, -, h⟩ | ⟨-, -, -, -, h⟩ | ⟨-, -, -, h⟩ | ⟨-, -, -, -, h⟩ |
    ⟨p, -, -, -, -, h⟩ | ⟨-, -, -, -, -, h⟩ | ⟨-, -, -, -, h⟩ <;> rw [h]
  · exact S.clearEsc.append_emptiedOrGrown endByte
  · exact S.clearEsc.append_emptiedOrGrown escByte
  · exact .inl ⟨rfl, Result.resets_error _⟩
  · exact .inr ⟨Result.not_resets_incomplete, .inl rfl⟩
  · exact .inr ⟨Result.not_resets_incomplete, .inl rfl⟩
  · exact .inl ⟨rfl, Result.resets_packetReady p⟩
  · exact .inl ⟨rfl, Result.resets_error _⟩
  · exact S.append_emptiedOrGrown c

/-! ## One created session across an instruction -/

theorem State.after_session_same {s : State} {k : Nat} {S T : Session} {r : Result}
    (h : (s.after k T r).sessions[k]? = some (some S)) : S = T := by
  rw [State.after_sessions, List.getElem?_set, if_pos rfl] at h
  split at h <;> cases h
  rfl

theorem State.after_session_other (s : State) {j k : Nat} (hne : j ≠ k) (T : Session) (r : Result) :
    (s.after j T r).sessions[k]? = s.sessions[k]? := by
  rw [State.after_sessions, List.getElem?_set_ne hne]

/-- Everything a completing instruction can do to a created session: leave it alone, initialise it, or give it what
UNPACK of some byte gives it. -/
theorem exec_session_cases {i : Instr} {s t : State} {k : Nat} {S S' : Session} (hx : exec i s = .next t)
    (hS : s.sessions[k]? = some (some S)) (hS' : t.sessions[k]? = some (some S')) :
    (i.session ≠ some k ∧ S' = S) ∨ (i = .sessionInit k ∧ S' = Session.fresh s.caller) ∨
    (∃ c, i ≠ .sessionInit k ∧ i.session = some k ∧ S' = (S.unpack c).1 ∧ t.result = some (S.unpack c).2) := by
  have unchanged (h : t.sessions[k]? = s.sessions[k]?) : S' = S := by
    rw [hS', hS] at h
    cases h
    rfl
  rcases exec_next_cases hx with ⟨j, c, T, hj, hinit, ⟨hT, -⟩, rfl, -⟩ | ⟨j, rfl, -, rfl⟩ |
    ⟨_, _, _, _, _, rfl, -, -, -, rfl⟩ | ⟨r, hnone, rfl, -⟩
  case inl =>
    by_cases hjk : j = k
    · subst hjk
      rw [hS] at hT
      cases hT
      exact .inr (.inr ⟨c, hinit j, hj, State.after_session_same hS', rfl⟩)
    · exact .inl ⟨by simp [hj, hjk], unchanged (s.after_session_other hjk _ _)⟩
  case inr.inl =>
    by_cases hjk : j = k
    · subst hjk
      exact .inr (.inl ⟨rfl, State.after_session_same hS'⟩)
    · exact .inl ⟨by simp [Instr.session, hjk], unchanged (s.after_session_other hjk _ _)⟩
  case inr.inr.inl => exact .inl ⟨nofun, unchanged rfl⟩
  case inr.inr.inr => exact .inl ⟨by simp [hnone], unchanged rfl⟩

/-- The two reset points of R241 that the returned result alone decides. -/
theorem resets_iff_of_result {t : State} {r : Result} (hr : t.result = some r) :
    ((∃ p, t.result = some (.packetReady p)) ∨ ∃ e, t.result = some (.error e)) ↔ r.Resets := by
  simp [hr, Result.Resets]

/-- Settles O47: an instruction leaves session k alone, initialises it, or is an UNPACK of it. -/
theorem sessionEmptiedExactlyAtResetPoints : Obligations.SessionEmptiedExactlyAtResetPoints := by
  intro i s t k S S' hx hS hS'
  rcases exec_session_cases hx hS hS' with ⟨hk, rfl⟩ | ⟨rfl, rfl⟩ | ⟨c, hinit, hk, rfl, hr⟩
  case inl => exact ⟨fun h => absurd h hk, fun _ => .inl rfl⟩
  case inr.inl => exact ⟨fun _ _ => ⟨rfl, rfl⟩, fun hno => absurd ⟨rfl, .inl rfl⟩ hno⟩
  case inr.inr =>
    rw [resets_iff_of_result hr, or_iff_right hinit]
    rcases S.unpack_emptiedOrGrown c with ⟨hidled, hreset⟩ | ⟨hkeep, hgrown⟩
    · exact ⟨fun _ _ => by simp [hidled], fun hno => absurd ⟨hk, hreset⟩ hno⟩
    · exact ⟨fun _ h => absurd h hkeep, fun _ => hgrown⟩

end Sys2Proof.Machine
end

section
/-! The decoder on a request's bytes: what each format reads after its code word, that it reads back every well-formed
instruction, and what it can answer (30_encoding.md section 6). -/

namespace Sys2Proof

@[simp] theorem readByte_cons (b : Byte) (bs : List Byte) : readByte (b :: bs) = .ok (b, bs) := rfl

/-! ## Reading back an operand -/

/-- A reader that succeeds hands its value to what follows. -/
theorem except_bind_ok {α β : Type} (a : α) (f : α → Except DecodeError β) : (Except.ok a >>= f) = f a := rfl

theorem decodeCommand_unpack (k : Nat) (c : Byte) (rest : List Byte) :
    decodeCommand (2#8 :: (encodeNat k ++ c :: rest)) = .ok (.unpack k c) := by
  simp [decodeCommand, except_bind_ok, readNat_encodeNat]

theorem decodeCommand_sessionInit (k : Nat) (rest : List Byte) :
    decodeCommand (3#8 :: (encodeNat k ++ rest)) = .ok (.sessionInit k) := by
  simp [decodeCommand, except_bind_ok, readNat_encodeNat]

theorem decodeCommand_pack (t : Byte) (data : Payload) (cap out : Nat) (rest : List Byte) :
    decodeCommand (1#8 :: t :: (encodePayload data ++ (encodeNat cap ++ (encodeNat out ++ rest)))) =
      .ok (.pack t data cap out) := by
  simp [decodeCommand, except_bind_ok, readNat_encodeNat, readPayload_encodePayload]

/-- The rows of the keys with esc = 1. -/
theorem decodeWireByte_escaped (c : Byte) (k : Nat) (rest : List Byte) :
    decodeWireByte (c :: 1#8 :: (encodeNat k ++ rest)) =
      if c = escEndByte then .ok (.unpackEscEnd k)
      else if c = escEscByte then .ok (.unpackEscEsc k)
      else .ok (.unpackEscBad k c) := by
  simp [decodeWireByte, except_bind_ok, readNat_encodeNat]

theorem decodeWireByte_esc (k : Nat) (rest : List Byte) :
    decodeWireByte (escByte :: 0#8 :: (encodeNat k ++ rest)) = .ok (.unpackEsc k) := by
  simp [decodeWireByte, except_bind_ok, readNat_encodeNat]

/-- The key that three rows share: the selector byte names the row (log 9). -/
theorem decodeWireByte_end (k : Nat) (row : Byte) (rest : List Byte) :
    decodeWireByte (endByte :: 0#8 :: (encodeNat k ++ row :: rest)) = decodeEndRow k row := by
  have hne : endByte ≠ escByte := by decide
  simp [decodeWireByte, except_bind_ok, readNat_encodeNat, hne]

theorem decodeWireByte_data {c : Byte} (hend : c ≠ endByte) (hesc : c ≠ escByte) (k : Nat) (rest : List Byte) :
    decodeWireByte (c :: 0#8 :: (encodeNat k ++ rest)) = .ok (.unpackData k c) := by
  simp [decodeWireByte, except_bind_ok, readNat_encodeNat, hend, hesc]

theorem decodeStuff_literal {b : Byte} (hend : b ≠ endByte) (hesc : b ≠ escByte) (rest : List Byte) :
    decodeStuff (b :: rest) = .ok (.stuffLiteral b) := by
  simp [decodeStuff, except_bind_ok, hend, hesc]

theorem decodeTypeTag_invalid {t : Byte} (ht : PacketType.ofTag t = none) (rest : List Byte) :
    decodeTypeTag (t :: rest) = .ok (.tagInvalid t) := by
  simp [decodeTypeTag, except_bind_ok, ht]

/-- Settles O7: row by row, each reader of the decoder reads what the encoder wrote. -/
theorem decodeInvertsEncode : Obligations.DecodeInvertsEncode := by
  intro i rest hwf
  cases i with
  | layout t => rfl
  | pack t data cap out =>
    simp only [encode, List.cons_append, List.append_assoc]
    exact decodeCommand_pack t data cap out rest
  | unpack k c =>
    simp only [encode, List.cons_append, List.append_assoc]
    exact decodeCommand_unpack k c rest
  | sessionInit k => exact decodeCommand_sessionInit k rest
  | unpackEscEnd k => exact decodeWireByte_escaped escEndByte k rest
  | unpackEscEsc k => exact decodeWireByte_escaped escEscByte k rest
  | unpackEscBad k c =>
    simp only [Instr.wellFormed, Bool.and_eq_true, decide_eq_true_eq] at hwf
    obtain ⟨hescEnd, hescEsc⟩ := hwf
    have h := decodeWireByte_escaped c k rest
    rwa [if_neg hescEnd, if_neg hescEsc] at h
  | unpackEsc k => exact decodeWireByte_esc k rest
  | unpackEndEmpty k | unpackEndFrame k | unpackEndMalformed k =>
    simp only [encode, List.cons_append, List.append_assoc]
    exact decodeWireByte_end k _ rest
  | unpackData k c =>
    simp only [Instr.wellFormed, Bool.and_eq_true, decide_eq_true_eq] at hwf
    obtain ⟨hend, hesc⟩ := hwf
    exact decodeWireByte_data hend hesc k rest
  | stuffEnd | stuffEsc => rfl
  | stuffLiteral b =>
    simp only [Instr.wellFormed, Bool.and_eq_true, decide_eq_true_eq] at hwf
    obtain ⟨hend, hesc⟩ := hwf
    exact decodeStuff_literal hend hesc rest
  | tagQuat | tagAcc | tagGyro | tagMag | tagColor | tagBlink | tagIR | tagVersion | tagId => rfl
  | tagInvalid t => exact decodeTypeTag_invalid (Option.isNone_iff_eq_none.1 hwf) rest

/-! ## What the decoder can answer -/

/-- A reader of two parts succeeds only if its first part does. -/
theorem except_bind_eq_ok {α β : Type} {x : Except DecodeError α} {f : α → Except DecodeError β} {b : β}
    (h : (x >>= f) = .ok b) : ∃ a, x = .ok a ∧ f a = .ok b := by
  cases x with
  | error e => cases h
  | ok a => exact ⟨a, rfl, h⟩

/-- The instruction is of format f, and its row admits its operands or it is a PACK. -/
def Instr.DecodedIn (f : Format) (i : Instr) : Prop :=
  i.format = f ∧ (i.wellFormed = true ∨ ∃ t data cap out, i = .pack t data cap out)

theorem decodeCommand_decodedIn {bs : List Byte} {i : Instr} (h : decodeCommand bs = .ok i) :
    i.DecodedIn .command := by
  obtain ⟨⟨op, bs'⟩, -, h⟩ := except_bind_eq_ok h
  dsimp only at h
  split at h
  · obtain ⟨⟨t, _⟩, -, h⟩ := except_bind_eq_ok h
    cases h
    exact ⟨rfl, .inl rfl⟩
  · obtain ⟨⟨t, _⟩, -, h⟩ := except_bind_eq_ok h
    obtain ⟨⟨data, _⟩, -, h⟩ := except_bind_eq_ok h
    obtain ⟨⟨cap, _⟩, -, h⟩ := except_bind_eq_ok h
    obtain ⟨⟨out, _⟩, -, h⟩ := except_bind_eq_ok h
    cases h
    exact ⟨rfl, .inr ⟨t, data, cap, out, rfl⟩⟩
  · obtain ⟨⟨k, _⟩, -, h⟩ := except_bind_eq_ok h
    obtain ⟨⟨c, _⟩, -, h⟩ := except_bind_eq_ok h
    cases h
    exact ⟨rfl, .inl rfl⟩
  · obtain ⟨⟨k, _⟩, -, h⟩ := except_bind_eq_ok h
    cases h
    exact ⟨rfl, .inl rfl⟩
  · cases h

theorem decodeEndRow_decodedIn {k : Nat} {row : Byte} {i : Instr} (h : decodeEndRow k row = .ok i) :
    i.DecodedIn .wireByte := by
  unfold decodeEndRow at h
  split at h <;> cases h
  all_goals exact ⟨rfl, .inl rfl⟩

theorem decodeWireByte_decodedIn {bs : List Byte} {i : Instr} (h : decodeWireByte bs = .ok i) :
    i.DecodedIn .wireByte := by
  obtain ⟨⟨c, _⟩, -, h⟩ := except_bind_eq_ok h
  obtain ⟨⟨esc, _⟩, -, h⟩ := except_bind_eq_ok h
  obtain ⟨⟨k, _⟩, -, h⟩ := except_bind_eq_ok h
  dsimp only at h
  split at h
  · split at h
    · cases h; exact ⟨rfl, .inl rfl⟩
    split at h
    · obtain ⟨⟨row, _⟩, -, h⟩ := except_bind_eq_ok h
      exact decodeEndRow_decodedIn h
    · cases h; exact ⟨rfl, .inl (by simp [Instr.wellFormed, *])⟩
  · split at h
    · cases h; exact ⟨rfl, .inl rfl⟩
    split at h
    · cases h; exact ⟨rfl, .inl rfl⟩
    · cases h; exact ⟨rfl, .inl (by simp [Instr.wellFormed, *])⟩
  · cases h

theorem decodeStuff_decodedIn {bs : List Byte} {i : Instr} (h : decodeStuff bs = .ok i) : i.DecodedIn .stuff := by
  obtain ⟨⟨b, _⟩, -, h⟩ := except_bind_eq_ok h
  dsimp only at h
  split at h
  · cases h; exact ⟨rfl, .inl rfl⟩
  split at h
  · cases h; exact ⟨rfl, .inl rfl⟩
  · cases h; exact ⟨rfl, .inl (by simp [Instr.wellFormed, *])⟩

theorem decodeTypeTag_decodedIn {bs : List Byte} {i : Instr} (h : decodeTypeTag bs = .ok i) :
    i.DecodedIn .typeTag := by
  obtain ⟨⟨t, _⟩, -, h⟩ := except_bind_eq_ok h
  dsimp only at h
  cases ht : PacketType.ofTag t with
  | none =>
    rw [ht] at h
    cases h
    exact ⟨rfl, .inl (Option.isNone_iff_eq_none.2 ht)⟩
  | some ty =>
    rw [ht] at h
    cases ty <;> cases h <;> exact ⟨rfl, .inl rfl⟩

/-- Settles O8: one decoder function per format. -/
theorem decodedRowsAreWellFormed : Obligations.DecodedRowsAreWellFormed := by
  intro f bs i h
  cases f with
  | command => exact decodeCommand_decodedIn h
  | wireByte => exact decodeWireByte_decodedIn h
  | stuff => exact decodeStuff_decodedIn h
  | typeTag => exact decodeTypeTag_decodedIn h

/-- Settles O9: the decoder evaluated on twelve bare words. -/
theorem tableWordsDecodeToTheirRows : Obligations.TableWordsDecodeToTheirRows := by
  unfold Obligations.TableWordsDecodeToTheirRows
  decide

end Sys2Proof
end

section
/-! The rows of format wire_byte as names of UNPACK's cases: which case a byte takes, and that the row so named does
what UNPACK does, and no other (42_unpack.md R140 to R149). -/

namespace Sys2Proof.Machine

theorem exec_unpack (k : Nat) (c : Byte) (s : State) : exec (.unpack k c) s = execUnpack k c s := rfl

theorem exec_sessionInit (k : Nat) (s : State) : exec (.sessionInit k) s = execSessionInit k s := rfl

/-- The row of spec/opcode_table.json that names a case of UNPACK, as an instruction on session k. -/
def WireRow.instr (k : Nat) (c : Byte) : WireRow → Instr
  | .escEnd => .unpackEscEnd k
  | .escEsc => .unpackEscEsc k
  | .escBad => .unpackEscBad k c
  | .esc => .unpackEsc k
  | .endEmpty => .unpackEndEmpty k
  | .endFrame _ => .unpackEndFrame k
  | .endMalformed => .unpackEndMalformed k
  | .data => .unpackData k c

theorem mem_wireRowsFor {k : Nat} {c : Byte} {j : Instr} :
    j ∈ wireRowsFor k c ↔
      (c = escEndByte ∧ j = .unpackEscEnd k) ∨ (c = escEscByte ∧ j = .unpackEscEsc k) ∨ j = .unpackEscBad k c ∨
      (c = escByte ∧ j = .unpackEsc k) ∨
      (c = endByte ∧ (j = .unpackEndEmpty k ∨ j = .unpackEndFrame k ∨ j = .unpackEndMalformed k)) ∨
      j = .unpackData k c := by
  simp [wireRowsFor]

/-- The case a byte takes names one of the rows that the byte's value could match. -/
theorem Session.instr_classify_mem (S : Session) (k : Nat) (c : Byte) :
    (S.classify c).instr k c ∈ wireRowsFor k c := by
  rw [mem_wireRowsFor]
  rcases S.unpack_cases c with ⟨-, hc, h, -⟩ | ⟨-, hc, h, -⟩ | ⟨-, -, -, h, -⟩ | ⟨-, hc, h, -⟩ | ⟨-, hc, -, h, -⟩ |
    ⟨p, -, hc, -, h, -⟩ | ⟨-, hc, -, -, h, -⟩ | ⟨-, -, -, h, -⟩ <;> rw [h] <;> simp [WireRow.instr, *]

/-- A row that the byte's value could match is UNPACK of that byte, where the case the byte takes names the row. -/
theorem exec_of_mem_wireRowsFor {k : Nat} {c : Byte} {j : Instr} (hj : j ∈ wireRowsFor k c) (s : State) :
    exec j s = unpackRow (fun r => decide (r.instr k c = j)) k c s := by
  rw [mem_wireRowsFor] at hj
  rcases hj with ⟨rfl, rfl⟩ | ⟨rfl, rfl⟩ | rfl | ⟨rfl, rfl⟩ | ⟨rfl, rfl | rfl | rfl⟩ | rfl
  all_goals
    simp only [exec_unpackEscEnd, exec_unpackEscEsc, exec_unpackEscBad, exec_unpackEsc, exec_unpackEndEmpty,
      exec_unpackEndFrame, exec_unpackEndMalformed, exec_unpackData]
    congr 1
    funext r
    cases r <;> simp [WireRow.instr]

/-- The row named by the case that the byte takes does what UNPACK does. -/
theorem exec_instr_classify {s : State} {k : Nat} {S : Session} (hd : s.drives k S) (c : Byte) :
    exec ((S.classify c).instr k c) s = exec (.unpack k c) s := by
  rw [exec_of_mem_wireRowsFor (S.instr_classify_mem k c), exec_unpack_of_drives c hd]
  exact unpackRow_of_selected hd (decide_eq_true rfl)

/-- Settles O31: the one row is that of the case the byte takes. -/
theorem exactlyOneWireRowApplies : Obligations.ExactlyOneWireRowApplies := by
  intro s k S c hd
  refine ⟨_, S.instr_classify_mem k c, exec_instr_classify hd c, fun j hj hne => ?_⟩
  rw [exec_of_mem_wireRowsFor hj]
  exact unpackRow_of_not_selected hd (decide_eq_false (Ne.symm hne))

/-! ## UNPACK and the row of its case, together -/

/-- On a session its caller drives, UNPACK and the row of the case that the byte takes do what the case says. -/
theorem exec_unpack_and_row {s : State} {k : Nat} {S : Session} {c : Byte} {r : WireRow} (hd : s.drives k S)
    (hc : S.classify c = r) {T : Session} {res : Result} (ht : S.takeRow c r = (T, res)) :
    exec (.unpack k c) s = .next (s.after k T res) ∧ exec (r.instr k c) s = .next (s.after k T res) := by
  have hu : S.unpack c = (T, res) := by rw [Session.unpack, hc, ht]
  have hx := exec_unpack_of_drives c hd
  rw [hu] at hx
  exact ⟨hx, hc ▸ (exec_instr_classify hd c).trans hx⟩

theorem Session.classify_escEndByte {S : Session} (he : S.esc = true) : S.classify escEndByte = .escEnd := by
  simp [Session.classify, he]

theorem Session.classify_escEscByte {S : Session} (he : S.esc = true) : S.classify escEscByte = .escEsc := by
  have hne : escEscByte ≠ escEndByte := by decide
  simp [Session.classify, he, hne]

theorem Session.classify_badEscape {S : Session} {c : Byte} (he : S.esc = true) (hend : c ≠ escEndByte)
    (hesc : c ≠ escEscByte) : S.classify c = .escBad := by
  simp [Session.classify, he, hend, hesc]

theorem Session.classify_escByte {S : Session} (he : S.esc = false) : S.classify escByte = .esc := by
  simp [Session.classify, he]

theorem Session.classify_ordinary {S : Session} {c : Byte} (he : S.esc = false) (hend : c ≠ endByte)
    (hesc : c ≠ escByte) : S.classify c = .data := by
  simp [Session.classify, he, hend, hesc]

theorem Session.classify_endByte_empty {S : Session} (he : S.esc = false) (hb : S.buf = []) :
    S.classify endByte = .endEmpty := by
  have hne : endByte ≠ escByte := by decide
  simp [Session.classify, he, hne, Session.idx, hb]

theorem Session.classify_endByte_of_received {S : Session} {p : Packet} (he : S.esc = false)
    (hr : S.received = some p) : S.classify endByte = .endFrame p := by
  have hne : endByte ≠ escByte := by decide
  obtain ⟨t, bs, -, hb, -⟩ := (S.received_eq_some_iff p).1 hr
  simp [Session.classify, he, hne, Session.idx, hb, hr]

theorem Session.classify_endByte_malformed {S : Session} (he : S.esc = false) (hb : S.buf ≠ [])
    (hr : S.received = none) : S.classify endByte = .endMalformed := by
  have hne : endByte ≠ escByte := by decide
  simp [Session.classify, he, hne, Session.idx, hb, hr]

theorem Session.received_of_buf {S : Session} {t : Byte} {p : List Byte} {ty : PacketType} (hb : S.buf = t :: p)
    (ht : PacketType.ofTag t = some ty) (hl : p.length = ty.psize) : S.received = some ⟨ty, des ty p⟩ :=
  (S.received_eq_some_iff _).2 ⟨t, p, ty, hb, ht, hl, rfl⟩

/-- A buffer with an invalid tag or a wrong length holds no packet (42_unpack.md R146). -/
theorem Session.received_eq_none {S : Session} {t : Byte} {p : List Byte} (hb : S.buf = t :: p)
    (hbad : 8 < t.toNat ∨ ∃ ty, PacketType.ofTag t = some ty ∧ p.length ≠ ty.psize) : S.received = none := by
  refine Option.eq_none_iff_forall_ne_some.2 fun q hq => ?_
  obtain ⟨t', p', ty, hb', ht, hl, -⟩ := (S.received_eq_some_iff q).1 hq
  cases hb.symm.trans hb'
  rcases hbad with htag | ⟨ty', ht', hl'⟩
  · rw [(PacketType.ofTag_eq_none_iff t).2 htag] at ht
    cases ht
  · cases ht.symm.trans ht'
    exact hl' hl

theorem Session.append_of_length_ne {S : Session} (hroom : S.buf.length ≠ 17) (b : Byte) :
    S.append b = ({ S with buf := S.buf ++ [b] }, .incomplete) := by
  rcases S.append_cases b with ⟨hfull, -⟩ | ⟨-, h⟩
  · exact absurd hfull hroom
  · exact h

theorem Session.append_of_full {S : Session} (hfull : S.buf.length = 17) (b : Byte) :
    S.append b = (S.idled, .error .overflow) := by
  rcases S.append_cases b with ⟨-, h⟩ | ⟨hroom, -⟩
  · exact h
  · exact absurd hfull hroom

/-- Settles O23: the cases escEnd and escEsc, which append their literal to the session with esc cleared. -/
theorem unpackTranslatesEscapes : Obligations.UnpackTranslatesEscapes := by
  intro s k S hd he
  have hend {T r} := exec_unpack_and_row hd (Session.classify_escEndByte he) (T := T) (res := r)
  have hesc {T r} := exec_unpack_and_row hd (Session.classify_escEscByte he) (T := T) (res := r)
  refine ⟨fun hroom => ?room, fun hfull => ?full⟩
  case room =>
    have happend := Session.append_of_length_ne (S := S.clearEsc) hroom
    exact ⟨(hend (happend endByte)).1, (hend (happend endByte)).2, (hesc (happend escByte)).1,
      (hesc (happend escByte)).2⟩
  case full =>
    have happend := Session.append_of_full (S := S.clearEsc) hfull
    exact ⟨(hend (happend endByte)).1, (hend (happend endByte)).2, (hesc (happend escByte)).1,
      (hesc (happend escByte)).2⟩

/-- Settles O24: the case escBad. -/
theorem unpackBadEscapeIsFramingError : Obligations.UnpackBadEscapeIsFramingError :=
  fun _ _ _ _ hd he hend hesc => exec_unpack_and_row hd (Session.classify_badEscape he hend hesc) rfl

/-- Settles O25: the case esc. -/
theorem unpackEscSetsEscapeFlag : Obligations.UnpackEscSetsEscapeFlag :=
  fun _ _ _ hd he => exec_unpack_and_row hd (Session.classify_escByte he) rfl

/-- Settles O26: the case endEmpty, which puts back the session that is there. -/
theorem unpackEndOnEmptyBufferChangesNothing : Obligations.UnpackEndOnEmptyBufferChangesNothing := by
  intro s k S hd he hb
  have h := exec_unpack_and_row hd (Session.classify_endByte_empty he hb) rfl
  rwa [State.after_self hd] at h

/-- Settles O27: the case endFrame. -/
theorem unpackEndDeliversPacket : Obligations.UnpackEndDeliversPacket := by
  intro s k S t p ty hd he hb ht hl
  have hr := Session.received_of_buf hb ht hl
  exact exec_unpack_and_row hd (Session.classify_endByte_of_received he hr) rfl

/-- Settles O28: the case endMalformed. -/
theorem unpackEndRejectsMalformed : Obligations.UnpackEndRejectsMalformed := by
  intro s k S t p hd he hb hbad
  have hr := Session.received_eq_none hb hbad
  exact exec_unpack_and_row hd (Session.classify_endByte_malformed he (by simp [hb]) hr) rfl

/-- Settles O29: the case data, which appends the byte. -/
theorem unpackAppendsOrdinaryByte : Obligations.UnpackAppendsOrdinaryByte := by
  intro s k S c hd he hesc hend
  have hdata {T r} := exec_unpack_and_row hd (Session.classify_ordinary he hend hesc) (T := T) (res := r)
  exact ⟨fun hroom => hdata (Session.append_of_length_ne hroom c),
    fun hfull => hdata (Session.append_of_full hfull c)⟩

/-! ## UNPACK against the pseudocode of R140 -/

/-- Where the buffer holds a packet, R140's match on it delivers that packet. -/
theorem pseudoUnpack_endByte_of_received {S : Session} {p : Packet} (he : S.esc = false)
    (hr : S.received = some p) : pseudoUnpack S endByte = (S.idled, .packetReady p) := by
  obtain ⟨t, bs, ty, hb, ht, hl, rfl⟩ := (S.received_eq_some_iff p).1 hr
  simp [pseudoUnpack, he, endByte, hb, ht, hl, Session.idled]

/-- Where the buffer is not empty and holds no packet, R140's match on it raises MalformedPacket. -/
theorem pseudoUnpack_endByte_malformed {S : Session} (he : S.esc = false) (hb : S.buf ≠ [])
    (hr : S.received = none) : pseudoUnpack S endByte = (S.idled, .error .malformedPacket) := by
  obtain ⟨t, p, hb⟩ := List.exists_cons_of_ne_nil hb
  cases ht : PacketType.ofTag t with
  | none => simp [pseudoUnpack, he, endByte, hb, ht, Session.idled]
  | some ty =>
    have hl : p.length ≠ ty.psize := fun hl => by
      rw [Session.received_of_buf hb ht hl] at hr
      cases hr
    simp [pseudoUnpack, he, endByte, hb, ht, hl, Session.idled]

/-- R140's pseudocode in an escape, in the machine's names. -/
theorem pseudoUnpack_of_esc {S : Session} (he : S.esc = true) (c : Byte) :
    pseudoUnpack S c =
      if c = escEndByte then S.clearEsc.append endByte
      else if c = escEscByte then S.clearEsc.append escByte
      else (S.idled, .error .framingError) := by
  rw [pseudoUnpack, if_pos he]
  rfl

/-- R140's pseudocode outside an escape, for a byte that does not end a frame. -/
theorem pseudoUnpack_of_not_esc {S : Session} {c : Byte} (he : S.esc = false) (hend : c ≠ endByte) :
    pseudoUnpack S c = if c = escByte then (S.setEsc, .incomplete) else S.append c := by
  rw [endByte] at hend
  simp only [pseudoUnpack, he, hend, if_false, Bool.false_eq_true]
  rfl

theorem pseudoUnpack_endByte_empty {S : Session} (he : S.esc = false) (hb : S.buf = []) :
    pseudoUnpack S endByte = (S, .incomplete) := by
  simp [pseudoUnpack, he, endByte, hb]

/-- UNPACK, by its cases, is the pseudocode of R140. -/
theorem Session.unpack_eq_pseudoUnpack (S : Session) (c : Byte) : S.unpack c = pseudoUnpack S c := by
  rcases S.unpack_cases c with ⟨he, hc, -, h⟩ | ⟨he, hc, -, h⟩ | ⟨he, hend, hesc, -, h⟩ | ⟨he, hc, -, h⟩ |
    ⟨he, hc, hb, -, h⟩ | ⟨p, he, hc, hr, -, h⟩ | ⟨he, hc, hb, hr, -, h⟩ | ⟨he, hesc, hend, -, h⟩ <;> rw [h]
  · rw [pseudoUnpack_of_esc he, if_pos hc]
  · rw [pseudoUnpack_of_esc he, if_neg (hc ▸ by decide), if_pos hc]
  · rw [pseudoUnpack_of_esc he, if_neg hend, if_neg hesc]
  · rw [pseudoUnpack_of_not_esc he (hc ▸ by decide), if_pos hc]
  · rw [hc, pseudoUnpack_endByte_empty he hb]
  · rw [hc, pseudoUnpack_endByte_of_received he hr]
  · rw [hc, pseudoUnpack_endByte_malformed he hb hr]
  · rw [pseudoUnpack_of_not_esc he hend, if_neg hesc]

/-- Settles O30: UNPACK is the pseudocode, and its request is read back operand by operand. -/
theorem unpackFollowsPseudocode : Obligations.UnpackFollowsPseudocode := by
  intro s k S c hd
  rw [← S.unpack_eq_pseudoUnpack c]
  exact ⟨exec_unpack_of_drives c hd, decodeCommand_unpack k c⟩

/-! ## Where each result of UNPACK comes from -/

theorem Session.append_ne_packetReady (S : Session) (b : Byte) (p : Packet) : (S.append b).2 ≠ .packetReady p := by
  rcases S.append_cases b with ⟨-, h⟩ | ⟨-, h⟩ <;> simp [h]

/-- PacketReady comes from the case endFrame alone. -/
theorem Session.unpack_packetReady {S : Session} {c : Byte} {p : Packet} (h : (S.unpack c).2 = .packetReady p) :
    c = endByte ∧ S.esc = false ∧ S.received = some p ∧ (S.unpack c).1 = S.idled := by
  rcases S.unpack_cases c with ⟨-, -, -, hu⟩ | ⟨-, -, -, hu⟩ | ⟨-, -, -, -, hu⟩ | ⟨-, -, -, hu⟩ |
    ⟨-, -, -, -, hu⟩ | ⟨q, he, hc, hr, -, hu⟩ | ⟨-, -, -, -, -, hu⟩ | ⟨-, -, -, -, hu⟩ <;> rw [hu] at h ⊢
  · exact absurd h (S.clearEsc.append_ne_packetReady endByte p)
  · exact absurd h (S.clearEsc.append_ne_packetReady escByte p)
  · cases h
  · cases h
  · cases h
  · cases h
    exact ⟨hc, he, hr, rfl⟩
  · cases h
  · exact absurd h (S.append_ne_packetReady c p)

/-- A received packet is of its type's kind, and the buffer is its unframed encoding (42_unpack.md R145). -/
theorem Session.buf_of_received {S : Session} {p : Packet} (hr : S.received = some p) :
    p.data.kind = p.type.kind ∧ S.buf = unframed p.type.tag p.data := by
  obtain ⟨t, bs, ty, hb, ht, hl, rfl⟩ := (S.received_eq_some_iff p).1 hr
  exact ⟨des_kind ty bs, by rw [hb, unframed, ser_des hl, (PacketType.tag_of_ofTag ht).1]⟩

/-- Settles O32: PacketReady comes from the case endFrame, whose packet was received. -/
theorem packetReadyOnlyForUnframedPacket : Obligations.PacketReadyOnlyForUnframedPacket := by
  intro s t k c p hx hr
  obtain ⟨S, hd, rfl⟩ := (execUnpack_next_iff k c s t).1 hx
  obtain ⟨hc, he, hrec, hidled⟩ := Session.unpack_packetReady (Option.some.inj hr)
  obtain ⟨hkind, hbuf⟩ := Session.buf_of_received hrec
  obtain ⟨hslot, -⟩ := State.after_drives (S' := S.idled) (.packetReady p) hd rfl
  exact ⟨hc, hkind, S, hd, he, hbuf, hidled ▸ hslot⟩

/-- An UNPACK that returns an error empties its session, whatever the case. -/
theorem Session.unpack_error {S : Session} {c : Byte} {e : ErrorKind} (h : (S.unpack c).2 = .error e) :
    S.unpack c = (S.idled, .error e) := by
  rcases S.unpack_emptiedOrGrown c with ⟨hidled, -⟩ | ⟨hkeep, -⟩
  · exact Prod.ext hidled h
  · exact absurd (h ▸ Result.resets_error e) hkeep

/-- The results listed for UNPACK (10_state.md R29, 60_exceptions.md R201). -/
def Result.OfUnpack (r : Result) : Prop :=
  r = .incomplete ∨ (∃ p, r = .packetReady p) ∨ r = .error .framingError ∨ r = .error .malformedPacket ∨
    r = .error .overflow

theorem Session.append_ofUnpack (S : Session) (b : Byte) : (S.append b).2.OfUnpack := by
  rcases S.append_cases b with ⟨-, h⟩ | ⟨-, h⟩ <;> simp [h, Result.OfUnpack]

/-- Case by case; what an escaped literal or an ordinary byte returns is what APPEND returns. -/
theorem Session.unpack_ofUnpack (S : Session) (c : Byte) : (S.unpack c).2.OfUnpack := by
  rcases S.unpack_cases c with ⟨-, -, -, h⟩ | ⟨-, -, -, h⟩ | ⟨-, -, -, -, h⟩ | ⟨-, -, -, h⟩ | ⟨-, -, -, -, h⟩ |
    ⟨p, -, -, -, -, h⟩ | ⟨-, -, -, -, -, h⟩ | ⟨-, -, -, -, h⟩ <;> rw [h]
  · exact S.clearEsc.append_ofUnpack endByte
  · exact S.clearEsc.append_ofUnpack escByte
  · exact .inr (.inr (.inl rfl))
  · exact .inl rfl
  · exact .inl rfl
  · exact .inr (.inl ⟨p, rfl⟩)
  · exact .inr (.inr (.inr (.inl rfl)))
  · exact S.append_ofUnpack c

/-- Settles O48: each operation by what it can do. -/
theorem resultsMatchTheirOperation : Obligations.ResultsMatchTheirOperation := by
  intro s t
  refine ⟨fun tag hx => ?layout, fun tag data cap out hx => ?pack, fun k c hx => ?unpack, fun k hx => ?sessionInit⟩
  case layout =>
    rcases execLayout_cases tag s with ⟨-, h⟩ | ⟨ty, -, h⟩ <;> rw [exec_layout, h] at hx <;> cases hx
    · exact .inr rfl
    · exact .inl ⟨_, rfl⟩
  case pack =>
    obtain ⟨e, -, he, rfl⟩ | ⟨ty, -, -, -, rfl⟩ := execPack_next (exec_pack .. ▸ hx)
    · rcases packError_eq_some he with rfl | rfl
      · exact .inr (.inl rfl)
      · exact .inr (.inr rfl)
    · exact .inl ⟨_, rfl⟩
  case unpack =>
    obtain ⟨S, -, rfl⟩ := (execUnpack_next_iff k c s t).1 hx
    simpa [Result.OfUnpack] using S.unpack_ofUnpack c
  case sessionInit =>
    rcases execSessionInit_cases k s with ⟨-, h⟩ | ⟨-, h⟩ | ⟨S, -, -, h⟩ <;> cases h.symm.trans hx
    rfl

end Sys2Proof.Machine
end

section
/-! Every instruction on a session, said once: it is SESSION_INIT, UNPACK, or a row that UNPACK's case selects; when it
is refused; and that it works on its own session only (42_unpack.md R153, 70_reset_and_hazards.md section 3). -/

namespace Sys2Proof.Machine

/-- The instructions on session k are SESSION_INIT, UNPACK of a byte, and the rows that a byte's value could match. -/
theorem Instr.session_cases {i : Instr} {k : Nat} (hk : i.session = some k) :
    i = .sessionInit k ∨ ∃ c, i = .unpack k c ∨ i ∈ wireRowsFor k c := by
  cases i <;> cases hk
  case sessionInit => exact .inl rfl
  case unpack c => exact .inr ⟨c, .inl rfl⟩
  case unpackEscEnd => exact .inr ⟨escEndByte, .inr (by simp [mem_wireRowsFor])⟩
  case unpackEscEsc => exact .inr ⟨escEscByte, .inr (by simp [mem_wireRowsFor])⟩
  case unpackEscBad c => exact .inr ⟨c, .inr (by simp [mem_wireRowsFor])⟩
  case unpackEsc => exact .inr ⟨escByte, .inr (by simp [mem_wireRowsFor])⟩
  case unpackEndEmpty | unpackEndFrame | unpackEndMalformed =>
    exact .inr ⟨endByte, .inr (by simp [mem_wireRowsFor])⟩
  case unpackData c => exact .inr ⟨c, .inr (by simp [mem_wireRowsFor])⟩

theorem execSessionInit_next {k : Nat} {s t : State} (hx : execSessionInit k s = .next t) :
    s.mayInit k ∧ t = s.after k (Session.fresh s.caller) .unit := by
  rcases execSessionInit_cases k s with ⟨hk, h⟩ | ⟨-, h⟩ | ⟨S, -, -, h⟩ <;> rw [h] at hx <;> cases hx
  exact ⟨hk, rfl⟩

/-- Everything an instruction on session k that completes can do. -/
theorem exec_session_next {i : Instr} {k : Nat} {s t : State} (hk : i.session = some k) (hx : exec i s = .next t) :
    (i = .sessionInit k ∧ s.mayInit k ∧ t = s.after k (Session.fresh s.caller) .unit) ∨
    (∃ c S, s.drives k S ∧ (i = .unpack k c ∨ i = (S.classify c).instr k c) ∧
      t = s.after k (S.unpack c).1 (S.unpack c).2) := by
  obtain rfl | ⟨c, rfl | hrow⟩ := Instr.session_cases hk
  · exact .inl ⟨rfl, execSessionInit_next hx⟩
  · obtain ⟨S, hd, ht⟩ := (execUnpack_next_iff k c s t).1 hx
    exact .inr ⟨c, S, hd, .inl rfl, ht⟩
  · rw [exec_of_mem_wireRowsFor hrow] at hx
    obtain ⟨S, hd, hsel, ht⟩ := (unpackRow_next_iff _ k c s t).1 hx
    exact .inr ⟨c, S, hd, .inr (of_decide_eq_true hsel).symm, ht⟩

/-! ## Refusals -/

/-- A session that may not be opened refuses UNPACK and its rows, and SESSION_INIT where that is refused likewise. -/
theorem exec_session_refused {i : Instr} {k : Nat} {s : State} {r : Refusal} (hk : i.session = some k)
    (hopen : s.openSession k = .error r) (hinit : s.initSession k = .error r ∨ ∀ j, i ≠ .sessionInit j) :
    exec i s = .refused r := by
  obtain rfl | ⟨c, rfl | hrow⟩ := Instr.session_cases hk
  · have hinit := hinit.resolve_right fun h => h k rfl
    rw [exec_sessionInit, execSessionInit, hinit]
  · rw [exec_unpack, execUnpack, hopen]
  · rw [exec_of_mem_wireRowsFor hrow, unpackRow, hopen]

/-- Settles O34: the session does not open, and SESSION_INIT is excepted. -/
theorem uninitialisedSessionIsRefused : Obligations.UninitialisedSessionIsRefused :=
  fun _ _ _ hk hinit hS => exec_session_refused hk (by rw [State.openSession, hS]) (.inr hinit)

/-- Settles O35: the session does neither open nor may it be initialised. -/
theorem secondCallerIsRefused : Obligations.SecondCallerIsRefused :=
  fun _ _ _ _ hk hS hne => exec_session_refused hk (by simp [State.openSession, hS, hne])
    (.inl (by simp [State.initSession, hS, hne]))

/-- Settles O36: there is no such session to open or to initialise. -/
theorem indexOutOfRangeIsRefused : Obligations.IndexOutOfRangeIsRefused :=
  fun _ _ _ hk hlen => exec_session_refused hk (by rw [State.openSession, List.getElem?_eq_none hlen])
    (.inl (by rw [State.initSession, List.getElem?_eq_none hlen]))

/-- The block raises no fault: an instruction that never completes is refused. -/
theorem exec_refused_of_not_next {i : Instr} {s : State} (h : ∀ t, exec i s ≠ .next t) :
    ∃ r, exec i s = .refused r := by
  cases hx : exec i s with
  | next t => exact absurd hx (h t)
  | fault f => cases f
  | refused r => exact ⟨r, rfl⟩

/-- The row of a case that a byte takes admits that byte. -/
theorem Session.instr_classify_wellFormed (S : Session) (k : Nat) (c : Byte) :
    ((S.classify c).instr k c).wellFormed = true := by
  rcases S.unpack_cases c with ⟨-, -, h, -⟩ | ⟨-, -, h, -⟩ | ⟨-, hend, hesc, h, -⟩ | ⟨-, -, h, -⟩ | ⟨-, -, -, h, -⟩ |
    ⟨p, -, -, -, h, -⟩ | ⟨-, -, -, -, h, -⟩ | ⟨-, hesc, hend, h, -⟩ <;> rw [h]
  · rfl
  · rfl
  · simp [WireRow.instr, Instr.wellFormed, hend, hesc]
  · rfl
  · rfl
  · rfl
  · rfl
  · simp [WireRow.instr, Instr.wellFormed, hend, hesc]

theorem wellFormed_of_exec_next_of_no_session {i : Instr} {s t : State} (hk : i.session = none)
    (hx : exec i s = .next t) : i.wellFormed = true := by
  cases i <;> cases hk
  case pack t data cap out =>
    obtain ⟨e, hi, -⟩ | ⟨ty, ht, hkind, -⟩ := execPack_next (exec_pack .. ▸ hx)
    · exact hi
    · exact packInputOk_of_kind ht hkind
  case stuffLiteral b =>
    rcases execStuffLiteral_cases b s with ⟨-, h⟩ | ⟨hend, hesc, -⟩
    · cases h.symm.trans hx
    · simp [Instr.wellFormed, hend, hesc]
  case tagInvalid t =>
    rcases execTagInvalid_cases t s with ⟨ht, -⟩ | ⟨-, h⟩
    · exact Option.isNone_iff_eq_none.2 ((PacketType.ofTag_eq_none_iff t).2 ht)
    · cases h.symm.trans hx
  all_goals rfl

/-- Only an instruction whose row admits its operands completes. -/
theorem wellFormed_of_exec_next {i : Instr} {s t : State} (hx : exec i s = .next t) : i.wellFormed = true := by
  cases hk : i.session with
  | none => exact wellFormed_of_exec_next_of_no_session hk hx
  | some k =>
    obtain ⟨rfl, -⟩ | ⟨c, S, -, rfl | rfl, -⟩ := exec_session_next hk hx
    · rfl
    · rfl
    · exact S.instr_classify_wellFormed k c

/-- Settles O10: what completes is well-formed. -/
theorem illFormedNeverCompletes : Obligations.IllFormedNeverCompletes :=
  fun _ _ hill => exec_refused_of_not_next fun _ hx =>
    Bool.false_ne_true (hill.symm.trans (wellFormed_of_exec_next hx))

/-! ## SESSION_INIT -/

theorem State.after_slot {s : State} {k : Nat} (hk : k < s.sessions.length) (S : Session) (r : Result) :
    (s.after k S r).sessions[k]? = some (some S) := by
  simp [hk]

theorem exec_sessionInit_of_mayInit {s : State} {k : Nat} (hk : s.mayInit k) :
    exec (.sessionInit k) s = .next (s.after k (Session.fresh s.caller) .unit) := by
  rw [exec_sessionInit]
  rcases execSessionInit_cases k s with ⟨-, h⟩ | ⟨hlen, -⟩ | ⟨S, hS, hne, -⟩
  · exact h
  · exact absurd (State.mayInit_lt hk) (Nat.not_lt.2 hlen)
  · rcases hk with hnone | ⟨S', hS', hd⟩
    · cases hS.symm.trans hnone
    · cases hS.symm.trans hS'
      exact absurd hd hne

/-- After SESSION_INIT its caller drives the session. -/
theorem State.after_fresh_drives {s : State} {k : Nat} (hk : s.mayInit k) :
    (s.after k (Session.fresh s.caller) .unit).drives k (Session.fresh s.caller) :=
  ⟨State.after_slot (State.mayInit_lt hk) _ _, rfl⟩

/-- Settles O37: SESSION_INIT leaves a fresh session of the caller's, which it may initialise again. -/
theorem sessionInitMakesFreshSession : Obligations.SessionInitMakesFreshSession := by
  intro s k hk
  have hagain := exec_sessionInit_of_mayInit (.inr ⟨_, State.after_fresh_drives hk⟩)
  rw [State.after_after] at hagain
  exact ⟨⟨_, rfl, rfl, rfl, exec_sessionInit_of_mayInit hk, hagain⟩, decodeCommand_sessionInit k⟩

/-- Settles O38: the fresh session is driven by its caller, so UNPACK of any byte completes. -/
theorem sessionInitHandsSessionToItsCaller : Obligations.SessionInitHandsSessionToItsCaller := by
  intro s t k c hx
  obtain ⟨hk, rfl⟩ := execSessionInit_next hx
  have hd := State.after_fresh_drives hk
  exact ⟨hd, rfl, _, exec_unpack_of_drives c hd⟩

/-! ## Isolation of sessions (42_unpack.md R153, 20_memory.md R52) -/

/-- An instruction on session k that completes gives it a session and a result that depend only on session k and on the
caller. -/
theorem exec_session_local {i : Instr} {k : Nat} {s t : State} (hk : i.session = some k) (hx : exec i s = .next t) :
    ∃ S r, t = s.after k S r ∧ ∀ s' : State, s'.sessions[k]? = s.sessions[k]? → s'.caller = s.caller →
      exec i s' = .next (s'.after k S r) := by
  obtain ⟨rfl, hinit, rfl⟩ | ⟨c, S, ⟨hS, hdriver⟩, hi, rfl⟩ := exec_session_next hk hx
  · refine ⟨_, _, rfl, fun s' hslot hcaller => ?_⟩
    have hinit' : s'.mayInit k := by simpa only [State.mayInit, State.drives, hslot, hcaller] using hinit
    rw [exec_sessionInit_of_mayInit hinit', hcaller]
  · refine ⟨_, _, rfl, fun s' hslot hcaller => ?_⟩
    have hd' : s'.drives k S := ⟨hslot.trans hS, hdriver.trans hcaller.symm⟩
    have hx' := exec_unpack_of_drives c hd'
    rcases hi with rfl | rfl
    · exact hx'
    · exact (exec_instr_classify hd' c).trans hx'

/-- Settles O41: the instruction replaces session k, from every state with the same session k and caller. -/
theorem sessionOperationsAreIsolated : Obligations.SessionOperationsAreIsolated := by
  intro i k s t hk hx
  obtain ⟨S, r, rfl, hlocal⟩ := exec_session_local hk hx
  refine ⟨fun j hj => s.after_session_other (Ne.symm hj) S r, rfl, rfl, rfl, rfl, rfl, fun s' hslot hcaller => ?_⟩
  refine ⟨_, hlocal s' hslot hcaller, rfl, ?_⟩
  simp only [State.after_sessions, List.getElem?_set_self', hslot]

/-- Settles O42: each instruction finds its session as it was, in either order. -/
theorem distinctSessionOperationsCommute : Obligations.DistinctSessionOperationsCommute := by
  intro i j a b s u v hi hj hab hx hy
  obtain ⟨A, ra, rfl, hlocalA⟩ := exec_session_local hi hx
  obtain ⟨B, rb, rfl, hlocalB⟩ := exec_session_local hj hy
  refine ⟨_, _, hlocalB s (s.after_session_other hab A ra).symm rfl,
    hlocalA _ (s.after_session_other hab.symm B rb) rfl, rfl, rfl, ?_, rfl⟩
  simp only [State.after_sessions]
  exact List.set_comm _ _ hab.symm

/-- Settles O43: PACK leaves the sessions and the caller, and depends on neither. -/
theorem packCommutesWithSessionOperations : Obligations.PackCommutesWithSessionOperations := by
  intro tag data cap out j k s u v hj hx hy
  obtain ⟨S, r, rfl, hlocal⟩ := exec_session_local hj hy
  rw [exec_pack] at hx
  obtain ⟨e, hi, he, rfl⟩ | ⟨ty, ht, hkind, hc, rfl⟩ := execPack_next hx
  · exact ⟨_, _, hlocal s rfl rfl, execPack_of_packError (s := s.after k S r) hi he out, rfl, rfl, rfl, rfl⟩
  · exact ⟨_, _, hlocal s rfl rfl, execPack_of_valid ht hkind hc out _, rfl, rfl, rfl, rfl⟩

end Sys2Proof.Machine
end

section
/-! What every instruction and every step keeps: the parameters, the sessions created and their drivers, and, along a
run, that one caller drives each session (10_state.md R22, 20_memory.md section 5). -/

namespace Sys2Proof.Machine

/-- An instruction that is not on session k leaves it as it was. -/
theorem exec_slot_other {i : Instr} {k : Nat} {s t : State} (hk : i.session ≠ some k) (hx : exec i s = .next t) :
    t.sessions[k]? = s.sessions[k]? := by
  cases hj : i.session with
  | some j =>
    obtain ⟨S, r, rfl, -⟩ := exec_session_local hj hx
    exact s.after_session_other (fun h => hk (hj.trans (congrArg some h))) S r
  | none =>
    rcases exec_next_cases hx with ⟨j, _, _, hsome, -⟩ | ⟨j, rfl, -⟩ | ⟨_, _, _, _, _, -, -, -, -, rfl⟩ | ⟨r, -, rfl, -⟩
    · cases hj.symm.trans hsome
    · cases hj
    · rfl
    · rfl

/-- No instruction changes PACK_ERR_PRIORITY or the number of sessions. -/
theorem exec_priority_length {i : Instr} {s t : State} (hx : exec i s = .next t) :
    t.priority = s.priority ∧ t.sessions.length = s.sessions.length := by
  rcases exec_next_cases hx with ⟨_, _, _, -, -, -, rfl, -⟩ | ⟨_, -, -, rfl⟩ | ⟨_, _, _, _, _, -, -, -, -, rfl⟩ |
    ⟨r, -, rfl, -⟩ <;> simp

/-- An instruction on a created session completes only for the caller that drives it. -/
theorem drives_of_exec_session {i : Instr} {k : Nat} {s t : State} {S : Session} (hk : i.session = some k)
    (hx : exec i s = .next t) (hS : s.sessions[k]? = some (some S)) : S.driver = s.caller := by
  obtain ⟨-, hnone | ⟨S', hS', hd⟩, -⟩ | ⟨c, S', ⟨hS', hd⟩, -⟩ := exec_session_next hk hx
  · cases hS.symm.trans hnone
  · cases hS.symm.trans hS'
    exact hd
  · cases hS.symm.trans hS'
    exact hd

/-- After an instruction on session k it is created, and its caller drives it. -/
theorem drives_after_exec_session {i : Instr} {k : Nat} {s t : State} (hk : i.session = some k)
    (hx : exec i s = .next t) : ∃ S, t.drives k S := by
  obtain ⟨-, hinit, rfl⟩ | ⟨c, S, hd, -, rfl⟩ := exec_session_next hk hx
  · exact ⟨_, State.after_fresh_drives hinit⟩
  · exact ⟨_, State.after_drives _ hd (S.unpack_driver c)⟩

/-- Session k is created, and d drives it. -/
def State.drivenBy (s : State) (k d : Nat) : Prop := ∃ S, s.sessions[k]? = some (some S) ∧ S.driver = d

theorem exec_keeps_driver {i : Instr} {k d : Nat} {s t : State} (hx : exec i s = .next t) (h : s.drivenBy k d) :
    t.drivenBy k d := by
  obtain ⟨S, hS, rfl⟩ := h
  by_cases hk : i.session = some k
  · obtain ⟨S', hS', hd'⟩ := drives_after_exec_session hk hx
    exact ⟨S', hS', by rw [hd', (exec_queue_caller hx).2, drives_of_exec_session hk hx hS]⟩
  · exact ⟨S, (exec_slot_other hk hx).trans hS, rfl⟩

/-- A step that completes does nothing, or performs an instruction on the state that the fetch leaves. -/
theorem step_next {s t : State} (h : step s = .next t) :
    (s.queue = [] ∧ t = s) ∨ ∃ r rest i, s.queue = r :: rest ∧ decode r.format r.bytes = .ok i ∧
      exec i { s with queue := rest, caller := r.caller } = .next t := by
  rcases step_cases s with ⟨hq, hx⟩ | ⟨_, _, _, -, -, hx⟩ | ⟨r, rest, i, hq, hd, hx⟩ <;> rw [hx] at h
  · cases h
    exact .inl ⟨hq, rfl⟩
  · cases h
  · exact .inr ⟨r, rest, i, hq, hd, h⟩

theorem step_keeps_driver {k d : Nat} {s t : State} (hx : step s = .next t) (h : s.drivenBy k d) : t.drivenBy k d := by
  obtain ⟨-, rfl⟩ | ⟨r, rest, i, -, -, hx⟩ := step_next hx
  · exact h
  · exact exec_keeps_driver hx h

/-- Settles O6: instruction by instruction, on the state that the fetch leaves. -/
theorem stepKeepsParametersAndSessions : Obligations.StepKeepsParametersAndSessions := by
  intro s t hx
  have hcreated (k : Nat) (S : Session) (hS : s.sessions[k]? = some (some S)) :
      ∃ S', t.sessions[k]? = some (some S') := by
    obtain ⟨S', hS', -⟩ := step_keeps_driver hx ⟨S, hS, rfl⟩
    exact ⟨S', hS'⟩
  obtain ⟨-, rfl⟩ | ⟨r, rest, i, -, -, hx⟩ := step_next hx
  · exact ⟨rfl, rfl, hcreated⟩
  · obtain ⟨hpriority, hlength⟩ := exec_priority_length hx
    exact ⟨hpriority, hlength, hcreated⟩

/-- Settles O39: steps keep the driver, and only the driver's operations complete. -/
theorem sessionKeepsItsDriver : Obligations.SessionKeepsItsDriver :=
  fun _ _ _ S hS => ⟨fun hx => step_keeps_driver hx ⟨S, hS, rfl⟩, fun _ hk hx => drives_of_exec_session hk hx hS⟩

/-! ## Runs -/

theorem State.issuesOn_zero {s : State} {k : Nat} {r : Request} (h : s.issuesOn 0 k r) :
    ∃ rest i, s.queue = r :: rest ∧ decode r.format r.bytes = .ok i ∧ i.session = some k := by
  obtain ⟨hq, i, hd, hk⟩ := h
  rw [← List.head?_eq_getElem?] at hq
  obtain ⟨rest, hq⟩ := List.head?_eq_some_iff.1 hq
  exact ⟨rest, i, hq, hd, hk⟩

/-- After a step, the requests issued are those after the first. -/
theorem State.issuesOn_of_step {s t : State} {a k : Nat} {r : Request} (hx : step s = .next t)
    (h : s.issuesOn (a + 1) k r) : t.issuesOn a k r := by
  obtain ⟨hq, hi⟩ := h
  refine ⟨?_, hi⟩
  rw [step_queue hx, List.getElem?_tail]
  exact hq

/-- A step whose request is on session k performs that request's instruction. -/
theorem step_of_issuesOn_zero {s t : State} {k : Nat} {r : Request} (hx : step s = .next t) (h : s.issuesOn 0 k r) :
    ∃ (s' : State) (i : Instr), s'.sessions = s.sessions ∧ s'.caller = r.caller ∧ i.session = some k ∧
      exec i s' = .next t := by
  obtain ⟨rest, i, hq, hd, hk⟩ := State.issuesOn_zero h
  obtain ⟨hempty, -⟩ | ⟨r', rest', i', hq', hd', hx⟩ := step_next hx
  · cases hempty.symm.trans hq
  · cases hq.symm.trans hq'
    cases hd.symm.trans hd'
    exact ⟨{ s with queue := rest, caller := r.caller }, i, rfl, rfl, hk, hx⟩

/-- A request on session k leaves it driven by the request's caller. -/
theorem drivenBy_of_issuesOn_zero {s t : State} {k : Nat} {r : Request} (hx : step s = .next t)
    (h : s.issuesOn 0 k r) : t.drivenBy k r.caller := by
  obtain ⟨s', i, -, hcaller, hk, hx⟩ := step_of_issuesOn_zero hx h
  obtain ⟨S, hS, hd⟩ := drives_after_exec_session hk hx
  exact ⟨S, hS, by rw [hd, (exec_queue_caller hx).2, hcaller]⟩

/-- In a run, every request on a session that d drives was issued by d. -/
theorem caller_of_run_of_drivenBy {n a k d : Nat} {s t : State} {r : Request} (hrun : s.run n = some t) (ha : a < n)
    (h : s.drivenBy k d) (hr : s.issuesOn a k r) : r.caller = d := by
  induction n generalizing s a with
  | zero => cases ha
  | succ n ih =>
    obtain ⟨u, hx, hrun⟩ := (State.run_succ_iff n s t).1 hrun
    cases a with
    | zero =>
      obtain ⟨S, hS, rfl⟩ := h
      obtain ⟨s', i, hsessions, hcaller, hk, hx⟩ := step_of_issuesOn_zero hx hr
      rw [drives_of_exec_session hk hx (hsessions ▸ hS), hcaller]
    | succ a => exact ih hrun (Nat.lt_of_succ_lt_succ ha) (step_keeps_driver hx h) (State.issuesOn_of_step hx hr)

/-- Settles O40: after the first of the two requests its caller drives the session, and so issued the second. -/
theorem noRunDrivesASessionFromTwoCallers : Obligations.NoRunDrivesASessionFromTwoCallers := by
  intro n
  induction n with
  | zero => intro a _ _ _ _ _ _ _ ha; cases ha
  | succ n ih =>
    intro a b k s t r r' hrun ha hb hr hr'
    obtain ⟨u, hx, hrun⟩ := (State.run_succ_iff n s t).1 hrun
    match a, b with
    | 0, 0 => cases hr.1.symm.trans hr'.1; rfl
    | 0, b + 1 =>
      exact (caller_of_run_of_drivenBy hrun (Nat.lt_of_succ_lt_succ hb) (drivenBy_of_issuesOn_zero hx hr)
        (State.issuesOn_of_step hx hr')).symm
    | a + 1, 0 =>
      exact caller_of_run_of_drivenBy hrun (Nat.lt_of_succ_lt_succ ha) (drivenBy_of_issuesOn_zero hx hr')
        (State.issuesOn_of_step hx hr)
    | a + 1, b + 1 =>
      exact ih a b k u t r r' hrun (Nat.lt_of_succ_lt_succ ha) (Nat.lt_of_succ_lt_succ hb)
        (State.issuesOn_of_step hx hr) (State.issuesOn_of_step hx hr')

end Sys2Proof.Machine
end

section
/-! The legal states: what a step needs of the state to leave a legal one (10_state.md R23, R29, 41_pack.md R126). -/

namespace Sys2Proof.Machine

theorem mem_allPacketTypes (ty : PacketType) : ty ∈ allPacketTypes := by
  cases ty <;> decide

theorem Result.legal_layout (ty : PacketType) : (Result.layout ty.layout).legal = true :=
  List.any_eq_true.2 ⟨ty, mem_allPacketTypes ty, decide_eq_true rfl⟩

theorem Result.legal_tagged (ty : PacketType) : (Result.tagged ty.kind ty.psize).legal = true :=
  List.any_eq_true.2 ⟨ty, mem_allPacketTypes ty, decide_eq_true ⟨rfl, rfl⟩⟩

theorem Result.legal_packed_iff {n : Nat} : (Result.packed n).legal = true ↔ 2 ≤ n ∧ n ≤ 34 := by
  simp only [Result.legal, Bool.and_eq_true, decide_eq_true_eq]
  rfl

/-- UNPACK delivers only packets of their type's kind (40_packet_model.md R101). -/
theorem Session.unpack_legal (S : Session) (c : Byte) : (S.unpack c).2.legal = true := by
  rcases S.unpack_ofUnpack c with h | ⟨p, h⟩ | h | h | h
  case inr.inl =>
    obtain ⟨-, -, hrec, -⟩ := Session.unpack_packetReady h
    rw [h]
    exact decide_eq_true (Session.buf_of_received hrec).1
  all_goals rw [h]; rfl

/-- The results of LAYOUT, PACK and the stuff and type_tag rows. -/
theorem resultLegal_of_exec_no_session {i : Instr} {s t : State} (hk : i.session = none) (hx : exec i s = .next t) :
    resultLegal t.result = true := by
  cases i <;> cases hk
  case layout tag =>
    rcases execLayout_cases tag s with ⟨-, h⟩ | ⟨ty, -, h⟩ <;> rw [exec_layout, h] at hx <;> cases hx
    · rfl
    · exact Result.legal_layout ty
  case pack tag data cap out =>
    obtain ⟨e, -, -, rfl⟩ | ⟨ty, ht, hkind, -, rfl⟩ := execPack_next (exec_pack .. ▸ hx)
    · rfl
    · exact Result.legal_packed_iff.2 (length_frame_unframed_bounds ht hkind)
  case stuffLiteral b =>
    rcases execStuffLiteral_cases b s with ⟨-, h⟩ | ⟨-, -, h⟩ <;> cases h.symm.trans hx
    rfl
  case tagInvalid tag =>
    rcases execTagInvalid_cases tag s with ⟨-, h⟩ | ⟨-, h⟩ <;> cases h.symm.trans hx
    rfl
  case stuffEnd | stuffEsc => cases hx; rfl
  all_goals cases hx; exact Result.legal_tagged _

theorem resultLegal_of_exec {i : Instr} {s t : State} (hx : exec i s = .next t) : resultLegal t.result = true := by
  cases hk : i.session with
  | none => exact resultLegal_of_exec_no_session hk hx
  | some k =>
    obtain ⟨-, -, rfl⟩ | ⟨c, S, -, -, rfl⟩ := exec_session_next hk hx
    · rfl
    · exact S.unpack_legal c

theorem sessionBounded_some_iff {S : Session} : sessionBounded (some S) = true ↔ S.buf.length ≤ 17 :=
  decide_eq_true_iff

/-- UNPACK keeps a buffer within UNPACKED_MAX_SIZE: it grows by one byte only when it is not full. -/
theorem Session.unpack_bounded {S : Session} (hS : sessionBounded (some S) = true) (c : Byte) :
    sessionBounded (some (S.unpack c).1) = true := by
  rw [sessionBounded_some_iff] at hS ⊢
  rcases S.unpack_emptiedOrGrown c with ⟨h, -⟩ | ⟨-, h | ⟨hroom, b, h⟩⟩ <;> rw [h]
  · simp
  · exact hS
  · rw [List.length_append, List.length_singleton]
    omega

theorem all_sessionBounded_set {sessions : List (Option Session)} {k : Nat} {S : Session}
    (hall : sessions.all sessionBounded = true) (hS : sessionBounded (some S) = true) :
    (sessions.set k (some S)).all sessionBounded = true := by
  rw [List.all_eq_true] at hall ⊢
  intro x hx
  rcases List.mem_or_eq_of_mem_set hx with h | rfl
  · exact hall x h
  · exact hS

theorem exec_keeps_bounded {i : Instr} {s t : State} (hx : exec i s = .next t)
    (hall : s.sessions.all sessionBounded = true) : t.sessions.all sessionBounded = true := by
  rcases exec_next_cases hx with ⟨k, c, S, -, -, ⟨hS, -⟩, rfl, -⟩ | ⟨k, -, -, rfl⟩ | ⟨_, _, _, _, _, -, -, -, -, rfl⟩ |
    ⟨r, -, rfl, -⟩
  · have hbounded := List.all_eq_true.1 hall _ (List.mem_of_getElem? hS)
    exact all_sessionBounded_set hall (Session.unpack_bounded hbounded c)
  · exact all_sessionBounded_set hall rfl
  · exact hall
  · exact hall

theorem exec_keeps_memory_wf {i : Instr} {s t : State} (hx : exec i s = .next t) (hm : Memory.wf s.mem) :
    Memory.wf t.mem := by
  rcases exec_next_cases hx with ⟨_, _, _, -, -, -, rfl, -⟩ | ⟨_, -, -, rfl⟩ | ⟨_, _, _, out, _, -, -, -, -, rfl⟩ |
    ⟨r, -, rfl, -⟩
  · exact hm
  · exact hm
  · exact Memory.writeRun_wf hm out _
  · exact hm

theorem exec_keeps_legal {i : Instr} {s t : State} (hx : exec i s = .next t) (h : s.legal) : t.legal := by
  obtain ⟨hslots, hall, hm, -⟩ := h
  exact ⟨(exec_priority_length hx).2 ▸ hslots, exec_keeps_bounded hx hall, exec_keeps_memory_wf hx hm,
    resultLegal_of_exec hx⟩

/-- Settles O3: each part of a legal state, instruction by instruction; the fetch touches none of them. -/
theorem stepKeepsStateLegal : Obligations.StepKeepsStateLegal := by
  intro s t hs hx
  obtain ⟨-, rfl⟩ | ⟨r, rest, i, -, -, hx⟩ := step_next hx
  · exact hs
  · exact exec_keeps_legal hx hs

/-- The state before any operation is legal when there is a session slot. -/
theorem State.init_legal {n : Nat} (hn : 1 ≤ n) (p : PackErrPriority) : (State.init n p).legal := by
  refine ⟨by simpa [State.init] using hn, ?_, List.Pairwise.nil, rfl⟩
  rw [State.init, List.all_eq_true]
  intro x hx
  rw [List.eq_of_mem_replicate hx]
  rfl

/-- Settles O2: with no session created every buffer is bounded, and the number of slots is N_SESSIONS. -/
theorem resetIsLegal : Obligations.ResetIsLegal :=
  ⟨fun _ p hn => State.init_legal hn p, State.init_legal (by decide) _⟩

theorem step_of_queue_nil {s : State} (hq : s.queue = []) : step s = .next s := by
  rw [step, State.fetch, hq]

theorem State.init_slot (n k : Nat) (p : PackErrPriority) (S : Session) :
    (State.init n p).sessions[k]? ≠ some (some S) := by
  simp [State.init, List.getElem?_replicate]

/-- Settles O1: the fields of the state before any operation, whose queue is empty. -/
theorem resetHasNoSessionAndStaysIdle : Obligations.ResetHasNoSessionAndStaysIdle :=
  fun n p => ⟨List.length_replicate, rfl, fun k S => State.init_slot n k p S, fun _ => rfl, rfl,
    step_of_queue_nil rfl, step_of_queue_nil rfl⟩

/-- Settles O4: the fetch takes the first request, which decodes. -/
theorem stepPerformsDecodedRequest : Obligations.StepPerformsDecodedRequest := by
  intro s r rest i hq hd
  simp [step, State.fetch, hq, hd]

/-- Settles O5: there is nothing to fetch, or what is fetched does not decode. -/
theorem stepIdlesOrRefusesUndecodable : Obligations.StepIdlesOrRefusesUndecodable := by
  refine ⟨fun s hq => step_of_queue_nil hq, fun s r rest e hq hd => ?_⟩
  simp [step, State.fetch, hq, hd]

/-- Settles O50: the codes by definition; the type of faults is empty. -/
theorem errorsAreCodedResults : Obligations.ErrorsAreCodedResults :=
  ⟨rfl, rfl, rfl, rfl, rfl, nofun⟩

/-- Settles O22: a session's state by its escape flag, then by whether its buffer is empty. -/
theorem decoderStateFollowsRegisters : Obligations.DecoderStateFollowsRegisters := by
  intro S
  cases he : S.esc with
  | true => simp [Session.decoderState, he]
  | false =>
    rcases Nat.eq_zero_or_pos S.buf.length with hb | hb
    · simp [Session.decoderState, Session.idx, he, hb]
    · have hne : S.buf.length ≠ 0 := by omega
      simp [Session.decoderState, Session.idx, he, hne, Nat.succ_le_of_lt hb]

end Sys2Proof.Machine
end

section
/-! The tables that LAYOUT and the stuff and type_tag rows answer with (30_encoding.md R61, R71, 40_packet_model.md
section 2). -/

namespace Sys2Proof

theorem PacketType.layout_widths_sum (ty : PacketType) : (ty.layout.map Prod.snd).sum = ty.psize := by
  cases ty <;> rfl

/-- Each field of a layout begins where the fields before it end (40_packet_model.md R102). -/
theorem PacketType.layout_offset (ty : PacketType) (j : Fin ty.layout.length) :
    ty.layout[j].1 = ((ty.layout.take j).map Prod.snd).sum := by
  revert j
  cases ty <;> decide

end Sys2Proof

namespace Sys2Proof.Machine

theorem exec_layout_of_invalid_tag {t : Byte} (ht : 8 < t.toNat) (s : State) :
    exec (.layout t) s = .next (s.answer (.error .invalidType)) := by
  rw [exec_layout, execLayout, (PacketType.ofTag_eq_none_iff t).2 ht]
  rfl

/-- Settles O11: the nine tags of the table one by one, and every tag above them. -/
theorem layoutAnswersTableOrInvalidType : Obligations.LayoutAnswersTableOrInvalidType :=
  fun s => ⟨rfl, rfl, rfl, rfl, rfl, rfl, rfl, rfl, rfl, fun _ ht => exec_layout_of_invalid_tag ht s, fun _ _ => rfl⟩

/-- Settles O12: LAYOUT answers with the tag's table, whose fields tile the payload. -/
theorem layoutFieldsTileThePayload : Obligations.LayoutFieldsTileThePayload := by
  intro t s u fields hx hr
  rcases execLayout_cases t s with ⟨-, h⟩ | ⟨ty, ht, h⟩ <;> rw [exec_layout, h] at hx <;> cases hx <;> cases hr
  refine ⟨ty, ht, ty.layout_widths_sum, fun j o w hj => ?_⟩
  obtain ⟨hlt, hj⟩ := List.getElem?_eq_some_iff.1 hj
  simpa [hj] using ty.layout_offset ⟨j, hlt⟩

/-- Settles O51: the literal row is refused only for 0xC0 and 0xDB. -/
theorem stuffRowsGiveWireBytes : Obligations.StuffRowsGiveWireBytes := by
  refine fun s => ⟨rfl, rfl, fun b hend hesc => ?_⟩
  rcases execStuffLiteral_cases b s with ⟨rfl | rfl, -⟩ | ⟨-, -, h⟩
  · exact absurd rfl hend
  · exact absurd rfl hesc
  · exact h

/-- Settles O52: the table of 30_encoding.md R61, row by row. -/
theorem tagRowsGiveKindAndSize : Obligations.TagRowsGiveKindAndSize :=
  fun _ => ⟨rfl, rfl, rfl, rfl, rfl, rfl, rfl, rfl, rfl, rfl, rfl, rfl, rfl, rfl, rfl, rfl, rfl, rfl⟩

/-- Settles O58: the integer value of 16 bits, by its sign bit. -/
theorem sintIsTwosComplement : Obligations.SintIsTwosComplement := by
  intro x
  have hlt := x.isLt
  have hsign : x.getLsbD 15 = decide (32768 ≤ x.toNat) := BitVec.msb_eq_decide x
  simp only [sint, BitVec.toInt_eq_toNat_cond, hsign, decide_eq_true_eq]
  split_ifs <;> omega

end Sys2Proof.Machine
end

section
/-! The shape of a frame: its only END is its last byte, an ESC stands only before 0xDC or 0xDD, and it begins with the
tag (41_pack.md R127). -/

namespace Sys2Proof

theorem endByte_not_mem_stuff (b : Byte) : endByte ∉ stuff b := by
  rcases stuff_cases b with ⟨-, h⟩ | ⟨-, h⟩ | ⟨hend, -, h⟩ <;> rw [h]
  · decide
  · decide
  · simpa using hend.symm

theorem endByte_not_mem_stuffAll (u : List Byte) : endByte ∉ stuffAll u := by
  induction u with
  | nil => exact List.not_mem_nil
  | cons b u ih => rw [stuffAll, List.mem_append, not_or]; exact ⟨endByte_not_mem_stuff b, ih⟩

/-- In the list, every ESC stands before 0xDC or 0xDD. -/
def EscapesComplete (w : List Byte) : Prop :=
  ∀ i, w[i]? = some escByte → w[i + 1]? = some escEndByte ∨ w[i + 1]? = some escEscByte

theorem escapesComplete_nil : EscapesComplete [] := by
  intro i h
  cases h

theorem EscapesComplete.cons {w : List Byte} {b : Byte} (hw : EscapesComplete w) (hb : b ≠ escByte) :
    EscapesComplete (b :: w) := by
  intro i h
  cases i with
  | zero => exact absurd (Option.some.inj h) hb
  | succ i => exact hw i h

/-- An escape before a list whose escapes are complete. -/
theorem EscapesComplete.escape {w : List Byte} {c : Byte} (hw : EscapesComplete w)
    (hc : c = escEndByte ∨ c = escEscByte) : EscapesComplete (escByte :: c :: w) := by
  have hne : c ≠ escByte := by rcases hc with rfl | rfl <;> decide
  intro i h
  cases i with
  | zero => simpa using hc
  | succ i => exact hw.cons hne i h

theorem escapesComplete_stuffAll_append {w : List Byte} (hw : EscapesComplete w) (u : List Byte) :
    EscapesComplete (stuffAll u ++ w) := by
  induction u with
  | nil => exact hw
  | cons b u ih =>
    rw [stuffAll, List.append_assoc]
    rcases stuff_cases b with ⟨-, h⟩ | ⟨-, h⟩ | ⟨-, hesc, h⟩ <;> rw [h]
    · exact ih.escape (.inl rfl)
    · exact ih.escape (.inr rfl)
    · exact ih.cons hesc

theorem escapesComplete_frame (u : List Byte) : EscapesComplete (frame u) :=
  escapesComplete_stuffAll_append (escapesComplete_nil.cons (by decide)) u

theorem frame_getElem?_last (u : List Byte) : (frame u)[(frame u).length - 1]? = some endByte := by
  simp [frame]

/-- Before its last byte a frame holds no END. -/
theorem frame_getElem?_ne_endByte {u : List Byte} {i : Nat} (hi : i + 1 < (frame u).length) :
    (frame u)[i]? ≠ some endByte := by
  have hlt : i < (stuffAll u).length := by simpa [frame] using hi
  rw [frame, List.getElem?_append_left hlt]
  exact fun h => endByte_not_mem_stuffAll u (List.mem_of_getElem? h)

theorem frame_unframed_head {t : Byte} (ht : t.toNat ≤ 8) (data : Payload) :
    (frame (unframed t data))[0]? = some t := by
  rw [frame, unframed, stuffAll, stuff_tag ht]
  rfl

end Sys2Proof

namespace Sys2Proof.Machine

/-- Settles O18: OUT[0..n) is the frame, and the frame is well-delimited. -/
theorem packedFrameIsWellDelimited : Obligations.PackedFrameIsWellDelimited := by
  intro t data cap out n s u hx hr
  obtain ⟨ty, ht, hkind, -, rfl, -⟩ := execPack_packed hx hr
  obtain ⟨hlow, -⟩ := length_frame_unframed_bounds ht hkind
  have hread {i : Nat} (hi : i < (frame (unframed t data)).length) := readByte_of_execPack_packed hx hr hi
  refine ⟨?last, fun i hi => ?noEnd, fun i hi hesc => ?escapes, ?first⟩
  case last => rw [hread (by omega)]; exact frame_getElem?_last _
  case noEnd => rw [hread (by omega)]; exact frame_getElem?_ne_endByte hi
  case escapes =>
    rw [hread hi] at hesc
    have hnext := escapesComplete_frame _ i hesc
    have hlt : i + 1 < (frame (unframed t data)).length := by
      rcases hnext with h | h <;> exact (List.getElem?_eq_some_iff.1 h).1
    rw [hread hlt]
    exact ⟨hlt, hnext⟩
  case first =>
    have h := hread (i := 0) (by omega)
    rw [Nat.add_zero] at h
    rw [h, frame_unframed_head (PacketType.tag_of_ofTag ht).2]

/-! ## Two PACKs, one after the other (20_memory.md R52, R53) -/

/-- A PACK that completes leaves every address outside its OUT as it was. -/
theorem readByte_of_execPack_outside {t : Byte} {data : Payload} {cap out a : Nat} {s u : State}
    (hx : execPack t data cap out s = .next u) (ha : a < out ∨ out + cap ≤ a) : u.readByte a = s.readByte a := by
  obtain ⟨e, -, -, rfl⟩ | ⟨ty, ht, hkind, hc, rfl⟩ := execPack_next hx
  · rfl
  · exact State.readByte_writeOut_outside s ((length_frame_unframed_bounds ht hkind).2.trans hc) ha

theorem execPack_priority {t : Byte} {data : Payload} {cap out : Nat} {s u : State}
    (hx : execPack t data cap out s = .next u) : u.priority = s.priority := by
  obtain ⟨e, -, -, rfl⟩ | ⟨ty, -, -, -, rfl⟩ := execPack_next hx
  · rfl
  · rfl

/-- A frame lies within its OUT. -/
theorem le_cap_of_execPack_packed {t : Byte} {data : Payload} {cap out n : Nat} {s u : State}
    (hx : execPack t data cap out s = .next u) (hr : u.result = some (.packed n)) : n ≤ cap := by
  obtain ⟨ty, ht, hkind, hc, rfl, -⟩ := execPack_packed hx hr
  exact (length_frame_unframed_bounds ht hkind).2.trans hc

/-- Settles O21: the later frame is in its OUT, outside which the earlier frame stands. -/
theorem laterPackWinsOverlap : Obligations.LaterPackWinsOverlap := by
  intro t1 t2 d1 d2 cap1 cap2 out1 out2 n1 n2 s u v hx hr hy hr'
  refine ⟨fun i hi => readByte_of_execPack_packed hy hr' hi, fun i hi hout => ?_⟩
  rw [readByte_of_execPack_outside hy hout, readByte_of_execPack_packed hx hr hi]

/-- Settles O44: each PACK's result and frame do not depend on the state, and neither writes into the other's OUT. -/
theorem disjointPacksCommute : Obligations.DisjointPacksCommute := by
  intro t1 t2 d1 d2 cap1 cap2 out1 out2 s u v hdisjoint hx hy
  rw [exec_pack] at hx hy
  obtain ⟨u', hy', hr2⟩ := execPack_result_congr (execPack_priority hx) hy out2
  obtain ⟨v', hx', hr1⟩ := execPack_result_congr (execPack_priority hy').symm hx out1
  refine ⟨u', v', hy', hx', hr2, hr1, ?sessions, fun n hn i hi => ?first, fun n hn i hi => ?second,
    fun a ha1 ha2 => ?outside⟩
  case sessions =>
    rw [execPack_sessions hx', execPack_sessions hy', execPack_sessions hy, execPack_sessions hx]
  case first =>
    have hcap := le_cap_of_execPack_packed hx hn
    rw [readByte_of_execPack_packed hx' (hr1.trans hn) hi, readByte_of_execPack_outside hy (by omega),
      readByte_of_execPack_packed hx hn hi]
  case second =>
    have hcap := le_cap_of_execPack_packed hy hn
    rw [readByte_of_execPack_outside hx' (by omega), readByte_of_execPack_packed hy' (hr2.trans hn) hi,
      readByte_of_execPack_packed hy hn hi]
  case outside =>
    rw [readByte_of_execPack_outside hx' ha1, readByte_of_execPack_outside hy' ha2,
      readByte_of_execPack_outside hy ha2, readByte_of_execPack_outside hx ha1]

/-- Settles O45: of the four things an instruction can do, one writes memory and two a session. -/
theorem onlySuccessfulPackWritesMemory : Obligations.OnlySuccessfulPackWritesMemory := by
  intro i s t hx
  rcases exec_next_cases hx with ⟨k, c, S, hk, -, -, rfl, -⟩ | ⟨k, rfl, -, rfl⟩ |
    ⟨tag, data, cap, out, ty, rfl, -, -, -, rfl⟩ | ⟨r, -, rfl, -⟩
  · exact ⟨.inr fun _ => rfl, fun hnone => by cases hk.symm.trans hnone⟩
  · exact ⟨.inr fun _ => rfl, nofun⟩
  · exact ⟨.inl ⟨tag, data, cap, out, _, rfl, rfl⟩, fun _ => rfl⟩
  · exact ⟨.inr fun _ => rfl, fun _ => rfl⟩

end Sys2Proof.Machine
end

section
/-! UNPACK's escape flag, its errors, and what a session decodes after them (10_state.md section 2, 42_unpack.md
R154, 70_reset_and_hazards.md R246). -/

namespace Sys2Proof.Machine

/-! ## The escape flag -/

theorem Session.append_esc {S : Session} (he : S.esc = false) (b : Byte) : (S.append b).1.esc = false := by
  rcases S.append_cases b with ⟨-, h⟩ | ⟨-, h⟩ <;> rw [h]
  · rfl
  · exact he

theorem Session.classify_eq_esc_iff (S : Session) (c : Byte) :
    S.classify c = .esc ↔ S.esc = false ∧ c = escByte := by
  refine ⟨fun h => ?_, fun ⟨he, hc⟩ => hc ▸ Session.classify_escByte he⟩
  rcases S.unpack_cases c with ⟨-, -, hc, -⟩ | ⟨-, -, hc, -⟩ | ⟨-, -, -, hc, -⟩ | ⟨he, heq, -⟩ | ⟨-, -, -, hc, -⟩ |
    ⟨p, -, -, -, hc, -⟩ | ⟨-, -, -, -, hc, -⟩ | ⟨-, -, -, hc, -⟩
  case inr.inr.inr.inl => exact ⟨he, heq⟩
  all_goals cases hc.symm.trans h

/-- UNPACK leaves esc set in the case esc alone (10_state.md R26). -/
theorem Session.unpack_esc_iff (S : Session) (c : Byte) :
    (S.unpack c).1.esc = true ↔ S.esc = false ∧ c = escByte := by
  rw [← S.classify_eq_esc_iff c]
  rcases S.unpack_cases c with ⟨-, -, hc, h⟩ | ⟨-, -, hc, h⟩ | ⟨-, -, -, hc, h⟩ | ⟨-, -, hc, h⟩ | ⟨he, -, -, hc, h⟩ |
    ⟨p, -, -, -, hc, h⟩ | ⟨-, -, -, -, hc, h⟩ | ⟨he, -, -, hc, h⟩ <;> rw [h, hc]
  · simp [Session.append_esc S.clearEsc_esc]
  · simp [Session.append_esc S.clearEsc_esc]
  · simp
  · simp
  · simp [he]
  · simp
  · simp
  · simp [Session.append_esc he]

theorem WireRow.instr_eq_unpackEsc_iff {k : Nat} {c : Byte} {r : WireRow} : r.instr k c = .unpackEsc k ↔ r = .esc := by
  cases r <;> simp [WireRow.instr]

theorem WireRow.instr_ne_unpack (k : Nat) (c c' : Byte) (r : WireRow) : r.instr k c ≠ .unpack k c' := by
  cases r <;> nofun

/-- An instruction that does what UNPACK of c does: it sets esc exactly when it is named as UNPACK of ESC or as the row
UNPACK.ESC. -/
theorem Session.unpack_esc_iff_instr {S : Session} {i : Instr} {k : Nat} {c : Byte}
    (hi : i = .unpack k c ∨ i = (S.classify c).instr k c) :
    (S.unpack c).1.esc = true ↔ S.esc = false ∧ (i = .unpack k escByte ∨ i = .unpackEsc k) := by
  rw [S.unpack_esc_iff c]
  rcases hi with rfl | rfl
  · simp
  · rw [WireRow.instr_eq_unpackEsc_iff, or_iff_right (WireRow.instr_ne_unpack k c _ _), S.classify_eq_esc_iff]
    tauto

/-- Settles O46: the instruction is not on session k, initialises it, or is an UNPACK of it. -/
theorem escapeFlagSetOnlyByEsc : Obligations.EscapeFlagSetOnlyByEsc := by
  intro i s t k S' hx hS'
  by_cases hk : i.session = some k
  · obtain ⟨rfl, hinit, rfl⟩ | ⟨c, T, ⟨hT, hd⟩, hi, rfl⟩ := exec_session_next hk hx
    · cases State.after_session_same hS'
      simp [hk]
    · cases State.after_session_same hS'
      refine ⟨fun S hS => ?_, fun hnone => by cases hT.symm.trans hnone⟩
      cases hT.symm.trans hS
      rw [Session.unpack_esc_iff_instr hi]
      simp [hk, escByte]
  · rw [exec_slot_other hk hx] at hS'
    refine ⟨fun S hS => ?_, fun hnone => by cases hS'.symm.trans hnone⟩
    cases hS'.symm.trans hS
    have hne : i ≠ .unpack k 0xDB#8 ∧ i ≠ .unpackEsc k := ⟨by rintro rfl; exact hk rfl, by rintro rfl; exact hk rfl⟩
    simp [hk, hne]

/-! ## Errors -/

/-- An UNPACK that returned an error left its session idle, and the error. -/
theorem execUnpack_error {k : Nat} {c : Byte} {s t : State} {e : ErrorKind} (hx : execUnpack k c s = .next t)
    (hr : t.result = some (.error e)) : ∃ S, s.drives k S ∧ t = s.after k S.idled (.error e) := by
  obtain ⟨S, hd, rfl⟩ := (execUnpack_next_iff k c s t).1 hx
  rw [Session.unpack_error (Option.some.inj hr)]
  exact ⟨S, hd, rfl⟩

/-- Settles O33: the UNPACK's error, from the state that the fetch leaves. -/
theorem unpackErrorEmptiesOnlyItsSession : Obligations.UnpackErrorEmptiesOnlyItsSession := by
  intro s t r rest k c e hq hdec hx hr
  rw [stepPerformsDecodedRequest s r rest _ hq hdec, exec_unpack] at hx
  obtain ⟨S, ⟨hS, -⟩, rfl⟩ := execUnpack_error hx hr
  exact ⟨S, hS, rfl⟩

/-- Settles O53: the tag's row, LAYOUT, PACK with room, and END on a buffer that begins with the tag. -/
theorem invalidTagsAreRejected : Obligations.InvalidTagsAreRejected := by
  intro s t ht
  refine ⟨?row, exec_layout_of_invalid_tag ht s, fun data cap out hc => ?pack, fun k S p hd he hb => ?unpack⟩
  case row =>
    rcases execTagInvalid_cases t s with ⟨-, h⟩ | ⟨hle, -⟩
    · exact h
    · exact absurd ht (Nat.not_lt.2 hle)
  case pack =>
    exact execPack_of_packError (packInputOk_of_invalid_tag ht data) (packError_of_invalid_tag _ ht hc) out
  case unpack => exact (unpackEndRejectsMalformed s k S t p hd he hb (.inl ht)).1

/-! ## Streams after an error -/

/-- A packet's frame fed to an Idle session. -/
theorem feed_frame_of_idle {k : Nat} {s : State} {S : Session} {p : Packet} (hd : s.drives k S) (he : S.esc = false)
    (hb : S.buf = []) (hkind : p.data.kind = p.type.kind) :
    feed k (frame (unframed p.type.tag p.data)) s =
      some (s.answer (.packetReady p),
        List.replicate (stuffAll (unframed p.type.tag p.data)).length .incomplete ++ [.packetReady p]) := by
  have hrec : Session.received { S with buf := S.buf ++ unframed p.type.tag p.data } = some p :=
    Session.received_of_unframed (PacketType.ofTag_tag p.type) hkind (by rw [hb, List.nil_append])
  rw [feed_frame hd he hrec, Session.idled_of_idle he hb, State.after_self hd]

/-- Settles O55: the error leaves the session idle, and an Idle session decodes any frame. -/
theorem sessionHealsAfterError : Obligations.SessionHealsAfterError := by
  intro s t k c e p hx hr hkind
  obtain ⟨S, hd, rfl⟩ := execUnpack_error hx hr
  have hidle := State.after_drives (S' := S.idled) (.error e) hd rfl
  exact ⟨_, _, feed_frame_of_idle hidle rfl rfl hkind, fun _ => List.eq_of_mem_replicate, rfl⟩

theorem Session.unpack_endByte_empty {S : Session} (he : S.esc = false) (hb : S.buf = []) :
    S.unpack endByte = (S, .incomplete) := by
  rw [Session.unpack, Session.classify_endByte_empty he hb]
  rfl

/-- Settles O56: each END leaves the session as it was, so the next one meets it Idle again. -/
theorem repeatedEndsAreHarmless : Obligations.RepeatedEndsAreHarmless := by
  intro s k S m hd he hb
  induction m generalizing s with
  | zero => exact ⟨s, rfl, rfl, rfl⟩
  | succ m ih =>
    have hone := feed_singleton endByte hd
    rw [Session.unpack_endByte_empty he hb, State.after_self hd] at hone
    obtain ⟨v, hrest, hsessions, hmem⟩ := ih (s.answer .incomplete) hd
    exact ⟨v, feed_append hone hrest, hsessions, hmem⟩

/-- Settles O57: the overflow leaves the session idle, and 0x05 and 0xC0 are the frame of a Blink packet. -/
theorem overflowDoesNotResynchronise : Obligations.OverflowDoesNotResynchronise := by
  intro s k S c hd he hfull hesc hend
  have hone := feed_singleton c hd
  rw [Session.unpack_ordinary he hend hesc, Session.append_of_full hfull] at hone
  have hidle := State.after_drives (S' := S.idled) (.error .overflow) hd rfl
  exact ⟨_, feed_append hone (feed_frame_of_idle (p := ⟨.blink, .empty⟩) hidle rfl rfl rfl)⟩

end Sys2Proof.Machine
end
